-- ==== Sys2Proof/Word.lean ====
section
/-!
DEFINITION. The words of the NCO-AR-DCA core (`00_scope.md` R5): bit vectors, numbered from the most significant bit
down to bit 0. Their arithmetic is Lean's own `BitVec` arithmetic.
-/

namespace Sys2Proof

/-- A 32-bit bus or register word (`20_memory.md` R32, `10_state.md` R20). -/
abbrev Word := BitVec 32

/-- A 16-bit table entry, phase, level or rate (`10_state.md` R11, R12, R14, R15). -/
abbrev Half := BitVec 16

/-- A byte of the staged resource (`10_state.md` R18). -/
abbrev Byte := BitVec 8

/-- A 20-bit host byte address (`20_memory.md` R31). -/
abbrev Addr := BitVec 20

end Sys2Proof
end

