-- ==== Sys2Proof/Config.lean ====
section
/-!
DEFINITION. What an instance of the block fixes (`00_scope.md` R4): the fixed parameters, the three instance
parameters `N`, `W`, `INTERP_MODE`, and the free values of the model.
-/

namespace Sys2Proof
namespace Config

/-- `TABLE_LEN`: entries of the sine table (`00_scope.md` R4). -/
abbrev tableLen : Nat := 256

/-- `RES_BYTES`: the exact size of the resource in bytes (`00_scope.md` R4). -/
abbrev resBytes : Nat := 512

/-- `LEVEL_MAX`: the largest envelope level and the numerator of both rate divisions (`00_scope.md` R4). -/
abbrev levelMax : Nat := 0xFFFF

/-- `GAIN_SHIFT`: the amplifier shifts its product right by this many bits (`00_scope.md` R4). -/
abbrev gainShift : Nat := 16

/-- `FRAC_W`: fractional bits of the phase, and of the interpolation weight (`00_scope.md` R4). -/
abbrev fracBits : Nat := 8

/-- The largest legal `N` (`00_scope.md` R4, D12). -/
abbrev maxSamples : Nat := 16384

/-- The value a host read returns where the spec says "any value" (`93_implementation_defined.md` U1, U2, U3, U5):
draw number `k` of the run, at the address that is read. It has no body, so nothing can be proved about it but that it
is a word; two reads of two locations, and two reads of one location, have nothing in common. Log entry 8. -/
opaque freeWord : Nat → Addr → Word

/-- Whether the host's `round` goes up at a tie, for a frequency and a sample rate: not stated (`00_scope.md` R8). Log
entry 15. -/
opaque freqTieUp : Nat → Nat → Bool

end Config

/-- `W`: the width of every buffer element (`00_scope.md` R4). -/
inductive Width where
  | w16
  | w32
  deriving DecidableEq, Repr

/-- `INTERP_MODE`: how the interpolator rounds (`00_scope.md` R4, `44_interpolator.md` R91). -/
inductive InterpMode where
  | halfUp
  | floor
  | halfEven
  | halfAway
  deriving DecidableEq, Repr

/-- The instance parameters (`00_scope.md` R4). They are configuration: no command and no host access changes them
(`10_state.md` R10). -/
structure Params where
  /-- `N`, the number of samples of a quantum and the length of each buffer. -/
  n : Nat
  /-- `W`. -/
  width : Width
  /-- `INTERP_MODE`. -/
  mode : InterpMode
  deriving DecidableEq, Repr

/-- The instance that `State.reset` names: `N = 8`, `W = 16` (DESIGN CHOICE: the spec gives no default for `N` and
`W`, log entry 2) and the spec's default rounding `HALF_UP` (`44_interpolator.md` R91). -/
def Config.defaultParams : Params := { n := 8, width := .w16, mode := .halfUp }

/-- A raw configuration, before the construction-time check: three declared lengths and three declared widths
(`43_amplifier.md` R88: "a well-formedness predicate on a raw configuration with six fields"), and the rounding. -/
structure RawParams where
  lenSig : Nat
  lenGain : Nat
  lenOut : Nat
  widthSig : Nat
  widthGain : Nat
  widthOut : Nat
  mode : InterpMode
  deriving DecidableEq, Repr

/-- The completion and response codes (`60_exceptions.md` R101). Codes 8 to 15 are never produced. -/
inductive Code where
  /-- 0, success. -/
  | ok
  /-- 1, ResourceError, from `TBLLOAD`. -/
  | eResource
  /-- 2, ConfigurationError, from `ENVCFG`. -/
  | eConfig
  /-- 3, LengthMismatchError, when an instance is built; never in a running block (R104). -/
  | eLength
  /-- 4, the command word matches no row of the opcode map. -/
  | eIllegal
  /-- 5, the command is not allowed in the present state. -/
  | eState
  /-- 6, the block is halted. -/
  | eHalted
  /-- 7, a refused bus transaction; never in `LASTERR`. -/
  | eBus
  deriving DecidableEq, Repr

end Sys2Proof
end

