-- ==== Sys2Proof/Syntax.lean ====
section
/-!
DEFINITION. The syntax: one constructor of `Instr` for each of the six commands (`30_encoding.md` R50,
`opcode_table.json`), and the operand forms of the assembler notation (`30_encoding.md` R57).
-/

namespace Sys2Proof

/-- The six commands (`30_encoding.md` R50). The operand types carry the operands' ranges: `fcw` is a 16-bit field and
`trig` one bit (R53), so every value of this type is an instruction of the block. -/
inductive Instr where
  /-- `TBLLOAD`, format Z (`40_sinetable.md` R60). -/
  | tblload
  /-- `DCOINIT`, format Z (`41_oscillator.md` R70). -/
  | dcoinit
  /-- `DCORUN fcw`, format F (`41_oscillator.md` R72). -/
  | dcorun (fcw : Half)
  /-- `ENVCFG`, format Z (`42_envelope.md` R80). -/
  | envcfg
  /-- `ENVRUN trig`, format T (`42_envelope.md` R81). -/
  | envrun (trig : Bool)
  /-- `AMPRUN`, format Z (`43_amplifier.md` R85). -/
  | amprun
  deriving DecidableEq, Repr

/-- A command as a script writes it, with plain numbers as operands (`30_encoding.md` R57). An operand out of range is
"an assembly error, not a command". -/
inductive AsmCommand where
  | tblload
  | dcoinit
  | dcorun (fcw : Nat)
  | envcfg
  | envrun (trig : Nat)
  | amprun
  deriving DecidableEq, Repr

end Sys2Proof
end

