-- ==== Sys2Proof/WellFormed.lean ====
section
/-!
DEFINITION. The checks made before anything runs: the construction-time check of an instance (`43_amplifier.md` R88,
`60_exceptions.md` R104, `00_scope.md` R4) and the operand ranges of a script's command (`30_encoding.md` R57).
An `Instr` needs no check of its own: its operand types are as wide as its fields (R52, R53).
-/

namespace Sys2Proof

/-- The legal instance parameters: `1 <= N <= 16384` (`00_scope.md` R4). -/
abbrev Params.Legal (p : Params) : Prop := 1 ≤ p.n ∧ p.n ≤ Config.maxSamples

/-- A declared element width, if it is one of the two legal ones (`00_scope.md` R4). -/
def widthOfBits (bits : Nat) : Option Width :=
  if bits = 16 then some .w16 else if bits = 32 then some .w32 else none

/-- What the construction-time check answers. -/
inductive BuildResult where
  /-- The instance exists. -/
  | built (p : Params)
  /-- LengthMismatchError: lengths or widths differ (`43_amplifier.md` R88, `60_exceptions.md` R104). -/
  | rejected (diagnostic : Code)
  /-- `N` or `W` is not a legal value (`00_scope.md` R4); the spec names no diagnostic for this (log entry 17). -/
  | notAnInstance
  deriving DecidableEq, Repr

/-- The construction-time check (`43_amplifier.md` R88): an instance whose three buffers differ in length, or in
width, is rejected with `E_LENGTH` and does not exist. -/
def buildInstance (r : RawParams) : BuildResult :=
  if ¬ (r.lenSig = r.lenGain ∧ r.lenGain = r.lenOut) then .rejected .eLength
  else if ¬ (r.widthSig = r.widthGain ∧ r.widthGain = r.widthOut) then .rejected .eLength
  else
    match widthOfBits r.widthSig with
    | none => .notAnInstance
    | some w =>
      let p : Params := { n := r.lenSig, width := w, mode := r.mode }
      if p.Legal then .built p else .notAnInstance

/-- The operand ranges of a script's command: `0 <= fcw <= 65535`, `trig` is 0 or 1 (`30_encoding.md` R57). -/
def AsmCommand.wellFormed : AsmCommand → Bool
  | .tblload => true
  | .dcoinit => true
  | .dcorun fcw => decide (fcw ≤ 65535)
  | .envcfg => true
  | .envrun trig => decide (trig ≤ 1)
  | .amprun => true

/-- The command a script line stands for, or nothing for an assembly error (`30_encoding.md` R57). -/
def AsmCommand.assemble (c : AsmCommand) : Option Instr :=
  if c.wellFormed then
    match c with
    | .tblload => some .tblload
    | .dcoinit => some .dcoinit
    | .dcorun fcw => some (.dcorun (BitVec.ofNat 16 fcw))
    | .envcfg => some .envcfg
    | .envrun trig => some (.envrun (decide (trig = 1)))
    | .amprun => some .amprun
  else none

end Sys2Proof
end

