-- ==== Sys2Proof/Decode.lean ====
section
/-!
DEFINITION. The command decoder and encoder (`30_encoding.md` R52 to R56). Decoding is total on the `2^32` words.
-/

namespace Sys2Proof

/-- Why a word is illegal (`30_encoding.md` R55). Both give `E_ILLEGAL`. -/
inductive DecodeReject where
  /-- Opcode 0x0, or 0x7 to 0xF: no row of the opcode map has it. -/
  | unusedOpcode
  /-- A legal opcode with a nonzero "must be 0" field. -/
  | nonzeroMustBeZero
  deriving DecidableEq, Repr

/-- `FCW = c[15:0]` (`30_encoding.md` R53). -/
def fcwField (c : Word) : Half := c.extractLsb' 0 16

/-- `TRIG = c[0]`: 1 is true, 0 is false (`30_encoding.md` R53). -/
def trigField (c : Word) : Bool := c.getLsbD 0

/-- Bits [31:28] are the opcode `OP` in every format (`30_encoding.md` R52). -/
def opcodeField (c : Word) : BitVec 4 := c.extractLsb' 28 4

/-- The `mask` of an instruction's row (`30_encoding.md` R54). -/
def rowMask : Instr → Word
  | .tblload => 0xFFFFFFFF#32
  | .dcoinit => 0xFFFFFFFF#32
  | .dcorun _ => 0xFFFF0000#32
  | .envcfg => 0xFFFFFFFF#32
  | .envrun _ => 0xFFFFFFFE#32
  | .amprun => 0xFFFFFFFF#32

/-- The `match` of an instruction's row (`30_encoding.md` R54). -/
def rowMatch : Instr → Word
  | .tblload => 0x10000000#32
  | .dcoinit => 0x20000000#32
  | .dcorun _ => 0x30000000#32
  | .envcfg => 0x40000000#32
  | .envrun _ => 0x50000000#32
  | .amprun => 0x60000000#32

/-- The six rows, each with the operands read from the word `c`, in the table's order (`30_encoding.md` R54). -/
def rowsOf (c : Word) : List Instr :=
  [.tblload, .dcoinit, .dcorun (fcwField c), .envcfg, .envrun (trigField c), .amprun]

/-- A row matches when `c & mask = match` (`30_encoding.md` R54). -/
def rowMatches (c : Word) (i : Instr) : Bool := c &&& rowMask i == rowMatch i

/-- "A word `c` is the command of the first (and only) row with `c & mask = match`" (`30_encoding.md` R54); every
other word is illegal (R55). -/
def decode (c : Word) : Except DecodeReject Instr :=
  match (rowsOf c).find? (rowMatches c) with
  | some i => .ok i
  | none =>
    if 1 ≤ (opcodeField c).toNat ∧ (opcodeField c).toNat ≤ 6 then .error .nonzeroMustBeZero
    else .error .unusedOpcode

/-- The word of an instruction, as the script notation writes it: `0x30000000 | fcw`, `0x50000000 | trig`, and the bare
opcode for format Z (`30_encoding.md` R52, R57). -/
def encode : Instr → Word
  | .tblload => 0x10000000#32
  | .dcoinit => 0x20000000#32
  | .dcorun fcw => 0x30000000#32 ||| fcw.setWidth 32
  | .envcfg => 0x40000000#32
  | .envrun trig => 0x50000000#32 ||| (BitVec.ofBool trig).setWidth 32
  | .amprun => 0x60000000#32

/-- The instruction the decoder reads from a word numbered as `opcode_table.json` numbers it. Every row has 32 bits;
a shorter count leaves the upper bits 0, a longer one is no command word (`30_encoding.md` R56). -/
def decodeTableWord (nbits w : Nat) : Option Instr :=
  if nbits ≤ 32 then
    match decode (BitVec.ofNat 32 (w % 2 ^ nbits)) with
    | .ok i => some i
    | .error _ => none
  else none

end Sys2Proof
end

