-- ==== Sys2Proof/Machine/State.lean ====
section
/-!
DEFINITION. The state of one instance (`10_state.md` R10), the reasons a step can stop, and the state after reset
(`10_state.md` R26). Everything is plain data.
-/

namespace Sys2Proof
namespace Machine

/-- A memory of `w`-bit elements: (element number, element) pairs, in strictly rising order of the element number. An
element that is not listed holds no value: it is "unwritten" or "unspecified" (`10_state.md` R26). Each space of the
block is an array of fixed-size elements (`20_memory.md` R30). With `w = 8` an entry is a `Host.Cell`. Log entry 3. -/
abbrev Memory (w : Nat) := List (Nat × BitVec w)

/-- The canonical form of a memory: element numbers strictly rising. -/
abbrev Memory.wf {w : Nat} (m : Memory w) : Prop := m.Pairwise (fun a b => a.1 < b.1)

/-- Every listed element number is below `n`. -/
abbrev Memory.below {w : Nat} (n : Nat) (m : Memory w) : Prop := ∀ c ∈ m, c.1 < n

/-- `ENV_STATE` (`10_state.md` R13): exactly three values (`93_implementation_defined.md` U6). -/
inductive EnvState where
  | off
  | attack
  | release
  deriving DecidableEq, Repr

/-- What the host does to the block: a bus transaction (`20_memory.md` R32) or the external reset
(`70_reset_and_hazards.md` R120). -/
inductive HostEvent where
  /-- `HostRead(addr)`. -/
  | read (addr : Addr)
  /-- `HostWrite(addr, data)`. -/
  | write (addr : Addr) (data : Word)
  /-- The external reset. -/
  | reset
  deriving DecidableEq, Repr

/-- What the host receives: read data with a response code, or the response code of a write (`20_memory.md` R32). -/
inductive Answer where
  | readData (data : Word) (resp : Code)
  | written (resp : Code)
  deriving DecidableEq, Repr

/-- The state of one instance. The first seventeen items are the spec's own (`10_state.md` R10); `cfg` is the
configuration (`00_scope.md` R4); `inbox`, `answers` and `draws` are the model's own. -/
structure State where
  /-- The instance parameters; no step changes them (`10_state.md` R10). Log entry 2. -/
  cfg : Params
  /-- `TBL[0..255]` (`10_state.md` R11). -/
  tbl : Memory 16
  /-- `TBL_VALID` (`10_state.md` R11). -/
  tblValid : Bool
  /-- `PHASE` (`10_state.md` R12). -/
  phase : Half
  /-- `ENV_STATE` (`10_state.md` R13). -/
  envState : EnvState
  /-- `ENV_LEVEL` (`10_state.md` R14). -/
  envLevel : Half
  /-- `ATTACK_RATE` (`10_state.md` R15). -/
  attackRate : Half
  /-- `RELEASE_RATE` (`10_state.md` R15). -/
  releaseRate : Half
  /-- `ENV_CFG` (`10_state.md` R15). -/
  envCfg : Bool
  /-- `SIG[0..N-1]` (`10_state.md` R16). An element of 16 bits stands in the low half of its cell. Log entry 9. -/
  sig : Memory 32
  /-- `GAIN[0..N-1]` (`10_state.md` R16). -/
  gain : Memory 32
  /-- `OUT[0..N-1]` (`10_state.md` R16). -/
  out : Memory 32
  /-- `ARG0` (`10_state.md` R17). -/
  arg0 : Word
  /-- `ARG1` (`10_state.md` R17). -/
  arg1 : Word
  /-- `RES[0..511]` (`10_state.md` R18). -/
  res : Memory 8
  /-- `RES_DESC` (`10_state.md` R18). -/
  resDesc : Word
  /-- `LASTERR` (`10_state.md` R19). -/
  lastErr : Code
  /-- `HALT` (`10_state.md` R19). -/
  halt : Bool
  /-- The host's events still to come, oldest first (`70_reset_and_hazards.md` R128). Log entry 1. -/
  inbox : List HostEvent
  /-- What the host has received, oldest first (`70_reset_and_hazards.md` R128). Log entry 18. -/
  answers : List Answer
  /-- How many free values have been drawn. Log entry 8. -/
  draws : Nat
  deriving DecidableEq, Repr

/-- Why a step has no result: the faults "in the sense of `93_implementation_defined.md`"
(`70_reset_and_hazards.md` R128). Every one of them is safe: the model stops where the spec gives no value. -/
inductive Fault where
  /-- `AMPRUN` read an element of `SIG` or `GAIN` that nothing has written since reset (U3). Safe. -/
  | unwrittenElement
  /-- `AMPRUN` met a 32-bit gain above `0xFFFF` (`43_amplifier.md` R89, U4). Safe. -/
  | gainAboveRange
  /-- `TBLLOAD` read a byte of `RES` that nothing has written since reset (U5). Safe. -/
  | unwrittenResource
  /-- `DCORUN` read a table entry that holds no value (`10_state.md` R26). No run reaches it: a table that is valid
  has all its entries (`Safety.BlockInv`). Safe. -/
  | missingTableEntry
  deriving DecidableEq, Repr

/-- Why a step refuses an instruction. -/
inductive Refusal where
  /-- The instruction has no meaning in this model yet. Raised by `exec` alone. Safe. -/
  | notModelled (mnemonic : String)
  deriving DecidableEq, Repr

/-- The result of a step of this machine. -/
abbrev Result := Host.Outcome State Fault Refusal

/-- The state of an instance with parameters `p` immediately after reset (`10_state.md` R26). The two rates have no
value that the spec states: 0 is a placeholder that nothing shows (DESIGN CHOICE, log entry 7). -/
def State.resetOf (p : Params) : State where
  cfg := p
  tbl := []
  tblValid := false
  phase := 0#16
  envState := .off
  envLevel := 0#16
  attackRate := 0#16
  releaseRate := 0#16
  envCfg := false
  sig := []
  gain := []
  out := []
  arg0 := 0#32
  arg1 := 0#32
  res := []
  resDesc := 0#32
  lastErr := .ok
  halt := false
  inbox := []
  answers := []
  draws := 0

/-- The state after reset of the instance that the model names (`10_state.md` R26, log entry 2). -/
def State.reset : State := State.resetOf Config.defaultParams

end Machine
end Sys2Proof
end

