-- ==== Sys2Proof/Machine/Ops.lean ====
section
/-!
DEFINITION. The shared operations: reading and writing an element of a memory, sequencing, the sample loop, completion
of a command (the block's only exception mechanism, `60_exceptions.md` R100) and the external reset, the only way out
of a halt (`60_exceptions.md` R106).
-/

namespace Sys2Proof
namespace Machine

/-- Element `k` of a memory, if it holds a value. -/
def cellAt {w : Nat} (m : Memory w) (k : Nat) : Option (BitVec w) :=
  match m with
  | [] => none
  | c :: rest => if c.1 = k then some c.2 else cellAt rest k

/-- Store `v` at element `k`, keeping the canonical form. -/
def setCell {w : Nat} (m : Memory w) (k : Nat) (v : BitVec w) : Memory w :=
  match m with
  | [] => [(k, v)]
  | c :: rest =>
    if k < c.1 then (k, v) :: c :: rest
    else if k = c.1 then (k, v) :: rest
    else c :: setCell rest k v

/-- Run `f` on the state a result gives; a fault or a refusal stays. -/
def andThen (r : Result) (f : State → Result) : Result :=
  match r with
  | .next s => f s
  | .fault e => .fault e
  | .refused e => .refused e

/-- `for n = 0 .. k-1`: the body at each index in ascending order (`00_scope.md` R6, `20_memory.md` R40). -/
def forSamples (body : Nat → State → Result) : Nat → State → Result
  | 0, s => .next s
  | k + 1, s => andThen (forSamples body k s) (body k)

/-- Go on with the value of an element, or fault where it holds none (`93_implementation_defined.md` U3, U5). -/
def withValue {α : Type} (o : Option α) (e : Fault) (f : α → Result) : Result :=
  match o with
  | some v => f v
  | none => .fault e

/-- `complete(c)`: the command ends with code `c`, which is written to `LASTERR` (`60_exceptions.md` R100). The same
code is the response of the write to `CMD` (`30_encoding.md` R51); the host port reads it from `LASTERR`. -/
def complete (c : Code) (s : State) : State := { s with lastErr := c }

/-- `HALT <- 1`, then `complete(E_RESOURCE)`: the one error that changes more than `LASTERR` (`60_exceptions.md`
R100, R106; `40_sinetable.md` R60). -/
def completeFatal (s : State) : State := complete .eResource { s with halt := true }

/-- Step 1 of the dispatch (`30_encoding.md` R51): while `HALT = 1` every command word completes with `E_HALTED` and
changes nothing else (`60_exceptions.md` R106). Each command's meaning and the answer to an illegal word go through
this check, so that it comes first for every word. Log entry 10. -/
def unlessHalted (s : State) (r : Result) : Result :=
  if s.halt then .next (complete .eHalted s) else r

/-- The answer to a word that matches no row (`30_encoding.md` R51 step 2, R55). -/
def illegalWord (s : State) : Result := unlessHalted s (.next (complete .eIllegal s))

/-- The external reset (`70_reset_and_hazards.md` R120): the whole state becomes the reset state of the same instance.
What the host still has to issue, what it has received and the count of draws are not the block's (log entry 11). -/
def applyReset (s : State) : State :=
  { State.resetOf s.cfg with inbox := s.inbox, answers := s.answers, draws := s.draws }

/-- Give an answer to the host (`20_memory.md` R32). -/
def answer (a : Answer) (s : State) : State := { s with answers := s.answers ++ [a] }

end Machine
end Sys2Proof
end

