-- ==== Sys2Proof/Machine/Operands.lean ====
section
/-!
DEFINITION. The operand forms: the phase's fields (`41_oscillator.md` R71), buffer elements of `W` bits and their
conversions (`20_memory.md` R45, `10_state.md` R16), table entries and resource bytes (`20_memory.md` R37), and the
fields of `RES_DESC` (`10_state.md` R18).
-/

namespace Sys2Proof
namespace Machine

/-- `W` as a number of bits (`00_scope.md` R4). -/
def widthBits : Width → Nat
  | .w16 => 16
  | .w32 => 32

/-- `index0(P) = P[15:8]` (`41_oscillator.md` R71). -/
def index0 (p : Half) : Nat := (p.extractLsb' 8 8).toNat

/-- `index1(P) = (index0(P) + 1) mod 256` (`41_oscillator.md` R71). -/
def index1 (p : Half) : Nat := (index0 p + 1) % 256

/-- `weight(P) = P[7:0]` (`41_oscillator.md` R71). -/
def weight (p : Half) : Nat := (p.extractLsb' 0 8).toNat

/-- The `W` bits of an element, zero-extended to the 32 bits of its cell and of a bus word: `zext_32(B[k])`
(`20_memory.md` R33). -/
def elementBits (w : Width) (v : Word) : Word :=
  match w with
  | .w16 => (v.setWidth 16).setWidth 32
  | .w32 => v

/-- `signed(B[n])`: the element as two's complement of `W` bits (`10_state.md` R16). -/
def signedElement (w : Width) (v : Word) : Int :=
  match w with
  | .w16 => (v.setWidth 16).toInt
  | .w32 => v.toInt

/-- `unsigned(B[n])`: the element as an unsigned integer of `W` bits (`10_state.md` R16). -/
def unsignedElement (w : Width) (v : Word) : Nat :=
  match w with
  | .w16 => (v.setWidth 16).toNat
  | .w32 => v.toNat

/-- `trunc_W(i)`: the element whose `W` bits are `i` modulo `2^W` (`00_scope.md` R5). -/
def elementOfInt (w : Width) (i : Int) : Word :=
  match w with
  | .w16 => (BitVec.ofInt 16 i).setWidth 32
  | .w32 => BitVec.ofInt 32 i

/-- `sext_W` of a 16-bit sample, as `DCORUN` stores it (`20_memory.md` R45). -/
def sextElement (w : Width) (v : Half) : Word := elementOfInt w v.toInt

/-- `zext_W` of a 16-bit level, as `ENVRUN` stores it (`20_memory.md` R45). -/
def zextElement (w : Width) (v : Half) : Word := elementOfInt w v.toNat

/-- A table entry from its two resource bytes, little-endian: `{RES[2i+1], RES[2i]}` (`20_memory.md` R37,
`40_sinetable.md` R61). -/
def tableEntry (low high : Byte) : Half := high ++ low

/-- `RES_DESC.PRESENT`, bit 31 (`10_state.md` R18). -/
def resPresent (d : Word) : Bool := d.getLsbD 31

/-- `RES_DESC.LEN`, bits [30:0] (`10_state.md` R18). -/
def resLen (d : Word) : Nat := (d.extractLsb' 0 31).toNat

end Machine
end Sys2Proof
end

