-- ==== Sys2Proof/Machine/Flags.lean ====
section
/-!
DEFINITION. The block has no arithmetic flags; its flags are the fields of `STATUS` (`10_state.md` R23). The numbers of
the codes and states, and the two assembled views `STATUS` and `PARAMS` (`10_state.md` R20).
-/

namespace Sys2Proof
namespace Machine

/-- The number of a completion or response code (`60_exceptions.md` R101). -/
def codeBits : Code → BitVec 4
  | .ok => 0
  | .eResource => 1
  | .eConfig => 2
  | .eLength => 3
  | .eIllegal => 4
  | .eState => 5
  | .eHalted => 6
  | .eBus => 7

/-- The encoding of `ENV_STATE` (`10_state.md` R13). -/
def envStateBits : EnvState → BitVec 2
  | .off => 0
  | .attack => 1
  | .release => 2

/-- The encoding of `INTERP_MODE` in `PARAMS[19:17]` (`44_interpolator.md` R91). -/
def modeBits : InterpMode → BitVec 3
  | .halfUp => 0
  | .floor => 1
  | .halfEven => 2
  | .halfAway => 3

/-- `PARAMS[16]`, `W32`: 1 if `W = 32` (`10_state.md` R20). -/
def widthBit : Width → BitVec 1
  | .w16 => 0
  | .w32 => 1

/-- `STATUS`: [0] `TBL_VALID`, [1] `ENV_CFG`, [3:2] `ENV_STATE`, [4] `HALT`, [7:5] zero, [11:8] `LASTERR`, [31:12]
zero (`10_state.md` R20). -/
def statusWord (s : State) : Word :=
  0#20 ++ codeBits s.lastErr ++ 0#3 ++ BitVec.ofBool s.halt ++ envStateBits s.envState
    ++ BitVec.ofBool s.envCfg ++ BitVec.ofBool s.tblValid

/-- `PARAMS`: [14:0] `N`, [15] zero, [16] `W32`, [19:17] `INTERP_MODE`, [31:20] zero (`10_state.md` R20). -/
def paramsWord (p : Params) : Word :=
  0#12 ++ modeBits p.mode ++ widthBit p.width ++ 0#1 ++ BitVec.ofNat 15 p.n

end Machine
end Sys2Proof
end

