-- ==== Sys2Proof/Machine/Interpolator.lean ====
section
/-!
DEFINITION. The function `INTERP` (`44_interpolator.md` R90, R91), pure and without state (R24), and the oscillator's
output function `S(P)` (`41_oscillator.md` R71).
-/

namespace Sys2Proof
namespace Machine

/-- `num = 256 v0 + (v1 - v0) w`, formed without loss (`44_interpolator.md` R90). -/
def interpNum (v0 v1 : Int) (w : Nat) : Int := 256 * v0 + (v1 - v0) * w

/-- `RND(num / 256)` with `q = floor(num / 256)` and `r = num mod 256` (`44_interpolator.md` R91). -/
def roundDiv256 (mode : InterpMode) (num : Int) : Int :=
  let q := num / 256
  let r := num % 256
  match mode with
  | .halfUp => if r ≥ 128 then q + 1 else q
  | .floor => q
  | .halfEven => if r > 128 ∨ (r = 128 ∧ q % 2 = 1) then q + 1 else q
  | .halfAway => if r > 128 ∨ (r = 128 ∧ num > 0) then q + 1 else q

/-- `INTERP(v0, v1, w)` (`44_interpolator.md` R90). -/
def interp (mode : InterpMode) (v0 v1 : Int) (w : Nat) : Int := roundDiv256 mode (interpNum v0 v1 w)

/-- The sample for phase `p` between the entries `v0 = TBL[index0]` and `v1 = TBL[index1]`, as a 16-bit vector:
`trunc_16(INTERP(signed(v0), signed(v1), weight(p)))` (`41_oscillator.md` R71, R72). -/
def sampleBetween (mode : InterpMode) (v0 v1 : Half) (p : Half) : Half :=
  BitVec.ofInt 16 (interp mode v0.toInt v1.toInt (weight p))

end Machine
end Sys2Proof
end

