-- ==== Sys2Proof/Machine/SineTable.lean ====
section
/-!
DEFINITION. `TBLLOAD` (`40_sinetable.md` R60).
-/

namespace Sys2Proof
namespace Machine

/-- `TBL[i] <- {RES[2i+1], RES[2i]}` (`40_sinetable.md` R60). An unwritten byte faults (`93_implementation_defined.md`
U5). -/
def copyEntry (i : Nat) (s : State) : Result :=
  withValue (cellAt s.res (2 * i)) .unwrittenResource fun low =>
    withValue (cellAt s.res (2 * i + 1)) .unwrittenResource fun high =>
      .next { s with tbl := setCell s.tbl i (tableEntry low high) }

/-- The resource is present and 512 bytes long (`40_sinetable.md` R60). -/
def resourceAccepted (d : Word) : Bool := resPresent d && resLen d == Config.resBytes

/-- `TBLLOAD`: refuse a second table, halt on a missing or wrong-sized resource, else copy all 256 entries and set
`TBL_VALID` (`40_sinetable.md` R60). -/
def execTblload (s : State) : Result :=
  unlessHalted s <|
    if s.tblValid then .next (complete .eState s)
    else if !resourceAccepted s.resDesc then .next (completeFatal s)
    else andThen (forSamples copyEntry Config.tableLen s) fun t => .next (complete .ok { t with tblValid := true })

end Machine
end Sys2Proof
end

