-- ==== Sys2Proof/Machine/Oscillator.lean ====
section
/-!
DEFINITION. `DCOINIT` and `DCORUN` (`41_oscillator.md` R70, R72).
-/

namespace Sys2Proof
namespace Machine

/-- `DCOINIT`: `PHASE <- 0` (`41_oscillator.md` R70). -/
def execDcoinit (s : State) : Result :=
  unlessHalted s <| .next (complete .ok { s with phase := 0#16 })

/-- One sample of `DCORUN`: interpolate at the current phase, store, then advance the phase modulo `2^16`
(`41_oscillator.md` R72). -/
def dcoSample (fcw : Half) (n : Nat) (s : State) : Result :=
  withValue (cellAt s.tbl (index0 s.phase)) .missingTableEntry fun v0 =>
    withValue (cellAt s.tbl (index1 s.phase)) .missingTableEntry fun v1 =>
      .next { s with
        sig := setCell s.sig n (sextElement s.cfg.width (sampleBetween s.cfg.mode v0 v1 s.phase))
        phase := s.phase + fcw }

/-- `DCORUN fcw`: fill `SIG` with `N` samples (`41_oscillator.md` R72). -/
def execDcorun (fcw : Half) (s : State) : Result :=
  unlessHalted s <|
    if s.tblValid then
      andThen (forSamples (dcoSample fcw) s.cfg.n s) fun t => .next (complete .ok t)
    else .next (complete .eState s)

end Machine
end Sys2Proof
end

