-- ==== Sys2Proof/Machine/Envelope.lean ====
section
/-!
DEFINITION. `ENVCFG` and `ENVRUN` (`42_envelope.md` R80, R81), with the three-state automaton (R82).
-/

namespace Sys2Proof
namespace Machine

/-- `trunc_16(floor(65535 / x))` for an operand register `x` (`42_envelope.md` R80). -/
def rateOf (x : Word) : Half := BitVec.ofNat 16 (Config.levelMax / x.toNat)

/-- `ENVCFG`: both arguments are checked before anything is written (`42_envelope.md` R80). -/
def execEnvcfg (s : State) : Result :=
  unlessHalted s <|
    if s.arg0 = 0#32 ∨ s.arg1 = 0#32 then .next (complete .eConfig s)
    else .next (complete .ok
      { s with attackRate := rateOf s.arg0, releaseRate := rateOf s.arg1, envCfg := true })

/-- One sample of the automaton: the next state and level (`42_envelope.md` R81, R82). The sum and the difference are
formed in wider temporaries and both comparisons are strict. -/
def envNext (attackRate releaseRate : Half) (st : EnvState) (level : Half) : EnvState × Half :=
  match st with
  | .attack =>
    let t := level.toNat + attackRate.toNat
    if t > Config.levelMax then (.release, BitVec.ofNat 16 Config.levelMax) else (.attack, BitVec.ofNat 16 t)
  | .release =>
    let t := (level.toNat : Int) - releaseRate.toNat
    if t < 0 then (.off, 0#16) else (.release, BitVec.ofInt 16 t)
  | .off => (.off, 0#16)

/-- One sample of `ENVRUN`: update, then `GAIN[n] <- zext_W(ENV_LEVEL)` (`42_envelope.md` R81). -/
def envSample (n : Nat) (s : State) : Result :=
  let u := envNext s.attackRate s.releaseRate s.envState s.envLevel
  .next { s with envState := u.1, envLevel := u.2, gain := setCell s.gain n (zextElement s.cfg.width u.2) }

/-- The trigger: `ENV_STATE <- ATTACK`, the level unchanged (`42_envelope.md` R81, R82). -/
def applyTrigger (trig : Bool) (s : State) : State :=
  if trig then { s with envState := .attack } else s

/-- `ENVRUN trig`: optionally trigger once, then fill `GAIN` with `N` samples (`42_envelope.md` R81). -/
def execEnvrun (trig : Bool) (s : State) : Result :=
  unlessHalted s <|
    if s.envCfg then
      andThen (forSamples envSample s.cfg.n (applyTrigger trig s)) fun t => .next (complete .ok t)
    else .next (complete .eState s)

end Machine
end Sys2Proof
end

