-- ==== Sys2Proof/Machine/Amplifier.lean ====
section
/-!
DEFINITION. `AMPRUN` (`43_amplifier.md` R85, R86, R89).
-/

namespace Sys2Proof
namespace Machine

/-- `floor(x g / 65536)` of the exact product (`43_amplifier.md` R85). -/
def amplify (x : Int) (g : Nat) : Int := x * g / 2 ^ Config.gainShift

/-- `trunc_W` of the shifted product of an element of `SIG` and an element of `GAIN` (`43_amplifier.md` R85). -/
def ampElement (w : Width) (x g : Word) : Word :=
  elementOfInt w (amplify (signedElement w x) (unsignedElement w g))

/-- One sample of `AMPRUN` (`43_amplifier.md` R85). An unwritten element faults (`93_implementation_defined.md` U3), a
gain above `0xFFFF` too (`43_amplifier.md` R89: "a model faults"). -/
def ampSample (n : Nat) (s : State) : Result :=
  withValue (cellAt s.sig n) .unwrittenElement fun x =>
    withValue (cellAt s.gain n) .unwrittenElement fun g =>
      if unsignedElement s.cfg.width g > Config.levelMax then .fault .gainAboveRange
      else .next { s with out := setCell s.out n (ampElement s.cfg.width x g) }

/-- `AMPRUN`: `OUT[n] <- trunc_W(floor(SIG[n] x GAIN[n] / 65536))` for every `n` (`43_amplifier.md` R85). -/
def execAmprun (s : State) : Result :=
  unlessHalted s <| andThen (forSamples ampSample s.cfg.n s) fun t => .next (complete .ok t)

end Machine
end Sys2Proof
end

