-- ==== Sys2Proof/Machine/Dispatch.lean ====
section
/-!
DEFINITION. One arm per command: step 3 of the dispatch (`30_encoding.md` R51), "run the matched command's rule".
-/

namespace Sys2Proof
namespace Machine

def exec (i : Instr) (s : State) : Host.Outcome State Fault Refusal :=
  match i with
  | .tblload => Sys2Proof.Machine.execTblload s
  | .dcoinit => Sys2Proof.Machine.execDcoinit s
  | .dcorun fcw => Sys2Proof.Machine.execDcorun fcw s
  | .envcfg => Sys2Proof.Machine.execEnvcfg s
  | .envrun trig => Sys2Proof.Machine.execEnvrun trig s
  | .amprun => Sys2Proof.Machine.execAmprun s

end Machine
end Sys2Proof
end

