-- ==== Sys2Proof/Machine/HostPort.lean ====
section
/-!
DEFINITION. The host port: the address map (`20_memory.md` R31), host reads and writes (R33 to R36), refused accesses
(R35), issue of a command by a write to `CMD` (`30_encoding.md` R51) and the external reset
(`70_reset_and_hazards.md` R120).
-/

namespace Sys2Proof
namespace Machine

/-- The ten control and status registers (`10_state.md` R20). -/
inductive Csr where
  | cmd
  | status
  | arg0
  | arg1
  | resDesc
  | phase
  | envLevel
  | attackRate
  | releaseRate
  | params
  deriving DecidableEq, Repr

/-- A mapped location: a register, or element or word `k` of a space (`20_memory.md` R31). -/
inductive Loc where
  | csr (c : Csr)
  | res (k : Nat)
  | tbl (k : Nat)
  | sig (k : Nat)
  | gain (k : Nat)
  | out (k : Nat)
  deriving DecidableEq, Repr

/-- The number of a register (`10_state.md` R20). -/
def csrNumber : Csr → Nat
  | .cmd => 0
  | .status => 1
  | .arg0 => 2
  | .arg1 => 3
  | .resDesc => 4
  | .phase => 5
  | .envLevel => 6
  | .attackRate => 7
  | .releaseRate => 8
  | .params => 9

/-- The register with a number; 10 and above are reserved (`10_state.md` R20). -/
def csrOfNumber : Nat → Option Csr
  | 0 => some .cmd
  | 1 => some .status
  | 2 => some .arg0
  | 3 => some .arg1
  | 4 => some .resDesc
  | 5 => some .phase
  | 6 => some .envLevel
  | 7 => some .attackRate
  | 8 => some .releaseRate
  | 9 => some .params
  | _ => none

/-- The location, if its element number is below the number of words of its space. -/
def inSpace (size k : Nat) (l : Loc) : Option Loc := if k < size then some l else none

/-- Word `k` of space number `space` (`20_memory.md` R31). Spaces 6 to 15 are unmapped. -/
def locOfSpace (p : Params) (space k : Nat) : Option Loc :=
  match space with
  | 0 => (csrOfNumber k).map .csr
  | 1 => inSpace 128 k (.res k)
  | 2 => inSpace Config.tableLen k (.tbl k)
  | 3 => inSpace p.n k (.sig k)
  | 4 => inSpace p.n k (.gain k)
  | 5 => inSpace p.n k (.out k)
  | _ => none

/-- The location at a byte address: bits [19:16] are the space, bits [15:0] the byte offset in it, an element per
aligned word (`20_memory.md` R31). Nothing for a misaligned (R38) or unmapped address. -/
def locate (p : Params) (a : Addr) : Option Loc :=
  if a.extractLsb' 0 2 = 0#2 then
    locOfSpace p (a.extractLsb' 16 4).toNat ((a.extractLsb' 0 16).toNat / 4)
  else none

/-- The byte address of a location (`20_memory.md` R31, `30_encoding.md` R57). -/
def locAddr : Loc → Addr
  | .csr c => BitVec.ofNat 20 (4 * csrNumber c)
  | .res k => BitVec.ofNat 20 (0x10000 + 4 * k)
  | .tbl k => BitVec.ofNat 20 (0x20000 + 4 * k)
  | .sig k => BitVec.ofNat 20 (0x30000 + 4 * k)
  | .gain k => BitVec.ofNat 20 (0x40000 + 4 * k)
  | .out k => BitVec.ofNat 20 (0x50000 + 4 * k)

/-- Count one draw of a free value. -/
def drawn (s : State) : State := { s with draws := s.draws + 1 }

/-- Read a value the state holds. -/
def readHeld (v : Word) (s : State) : Word × State := (v, s)

/-- The free word of the present draw at a location (`93_implementation_defined.md` U1, U2, U3, U5). Log entry 8. -/
def freeAt (l : Loc) (s : State) : Word := Config.freeWord s.draws (locAddr l)

/-- Read an item to which the spec gives any value, in its low 16 bits (`93_implementation_defined.md` U1, U2). -/
def readFreeHalf (l : Loc) (s : State) : Word × State := (((freeAt l s).setWidth 16).setWidth 32, drawn s)

/-- Read a rate: its value, or any value while `ENV_CFG = 0` (`10_state.md` R20, `93_implementation_defined.md` U1). -/
def readRate (c : Csr) (r : Half) (s : State) : Word × State :=
  if s.envCfg then readHeld (r.setWidth 32) s else readFreeHalf (.csr c) s

/-- Read a table entry: its value, or any value while `TBL_VALID = 0` (`20_memory.md` R34,
`93_implementation_defined.md` U2). -/
def readTable (k : Nat) (s : State) : Word × State :=
  if s.tblValid then
    match cellAt s.tbl k with
    | some v => readHeld (v.setWidth 32) s
    | none => readFreeHalf (.tbl k) s
  else readFreeHalf (.tbl k) s

/-- Read element `k` of a buffer `m`, at location `l`: `zext_32(B[k])`, or any value in the low `W` bits if it is unwritten
(`20_memory.md` R33, `93_implementation_defined.md` U3). -/
def readBuffer (l : Loc) (m : Memory 32) (k : Nat) (s : State) : Word × State :=
  match cellAt m k with
  | some v => readHeld (elementBits s.cfg.width v) s
  | none => (elementBits s.cfg.width (freeAt l s), drawn s)

/-- Byte lane `j` of word `k` of `RES`; an unwritten byte takes its lane of the free word `f` (`20_memory.md` R34,
`93_implementation_defined.md` U5). -/
def resLane (m : Memory 8) (f : Word) (k j : Nat) : Byte :=
  match cellAt m (4 * k + j) with
  | some b => b
  | none => f.extractLsb' (8 * j) 8

/-- Word `k` of `RES` holds four written bytes. -/
def resWordWritten (m : Memory 8) (k : Nat) : Bool :=
  (cellAt m (4 * k)).isSome && (cellAt m (4 * k + 1)).isSome && (cellAt m (4 * k + 2)).isSome
    && (cellAt m (4 * k + 3)).isSome

/-- `{RES[4k+3], RES[4k+2], RES[4k+1], RES[4k]}` (`20_memory.md` R34). -/
def resWordValue (m : Memory 8) (f : Word) (k : Nat) : Word :=
  resLane m f k 3 ++ resLane m f k 2 ++ resLane m f k 1 ++ resLane m f k 0

/-- Read word `k` of `RES` (`20_memory.md` R34, `93_implementation_defined.md` U5). -/
def readRes (k : Nat) (s : State) : Word × State :=
  (resWordValue s.res (freeAt (.res k) s) k, if resWordWritten s.res k then s else drawn s)

/-- Read a register; `CMD` is write-only (`10_state.md` R20, `20_memory.md` R35, R36). -/
def readCsr (c : Csr) (s : State) : Option (Word × State) :=
  match c with
  | .cmd => none
  | .status => some (readHeld (statusWord s) s)
  | .arg0 => some (readHeld s.arg0 s)
  | .arg1 => some (readHeld s.arg1 s)
  | .resDesc => some (readHeld s.resDesc s)
  | .phase => some (readHeld (s.phase.setWidth 32) s)
  | .envLevel => some (readHeld (s.envLevel.setWidth 32) s)
  | .attackRate => some (readRate c s.attackRate s)
  | .releaseRate => some (readRate c s.releaseRate s)
  | .params => some (readHeld (paramsWord s.cfg) s)

/-- Read a location, or nothing where the read is refused (`20_memory.md` R33, R34, R35, R36). -/
def readLoc (l : Loc) (s : State) : Option (Word × State) :=
  match l with
  | .csr c => readCsr c s
  | .res k => some (readRes k s)
  | .tbl k => some (readTable k s)
  | .sig k => some (readBuffer l s.sig k s)
  | .gain k => some (readBuffer l s.gain k s)
  | .out k => some (readBuffer l s.out k s)

/-- `HostRead(addr)`: data and `OK`, or a refusal with `E_BUS` and data 0 (`20_memory.md` R32, R35). -/
def hostRead (a : Addr) (s : State) : State :=
  match (locate s.cfg a).bind (fun l => readLoc l s) with
  | some r => answer (.readData r.1 .ok) r.2
  | none => answer (.readData 0#32 .eBus) s

/-- Store a bus word in `RES`, byte `j` from lane `j` (`20_memory.md` R34). -/
def writeRes (m : Memory 8) (k : Nat) (d : Word) : Memory 8 :=
  setCell (setCell (setCell (setCell m (4 * k) (d.extractLsb' 0 8)) (4 * k + 1) (d.extractLsb' 8 8))
    (4 * k + 2) (d.extractLsb' 16 8)) (4 * k + 3) (d.extractLsb' 24 8)

/-- Store a bus word in a buffer element: `B[k] <- data[W-1:0]` (`20_memory.md` R33). -/
def writeBuffer (w : Width) (m : Memory 32) (k : Nat) (d : Word) : Memory 32 := setCell m k (elementBits w d)

/-- Issue a command word: run the command it decodes to, or answer an illegal word (`30_encoding.md` R51). -/
def issueCommand (c : Word) (s : State) : Result :=
  match decode c with
  | .ok i => exec i s
  | .error _ => illegalWord s

/-- A write that is accepted with `OK`. -/
def acceptWrite (s : State) : Result := .next (answer (.written .ok) s)

/-- A write that is refused with `E_BUS`: it changes nothing (`20_memory.md` R35). -/
def refuseWrite (s : State) : Result := .next (answer (.written .eBus) s)

/-- Write a register (`10_state.md` R20, `20_memory.md` R36). The response of a write to `CMD` is the completion code
of the command (R32), which the command has left in `LASTERR`. -/
def writeCsr (c : Csr) (d : Word) (s : State) : Result :=
  match c with
  | .cmd => andThen (issueCommand d s) fun t => .next (answer (.written t.lastErr) t)
  | .status => refuseWrite s
  | .arg0 => acceptWrite { s with arg0 := d }
  | .arg1 => acceptWrite { s with arg1 := d }
  | .resDesc => acceptWrite { s with resDesc := d }
  | .phase => refuseWrite s
  | .envLevel => refuseWrite s
  | .attackRate => refuseWrite s
  | .releaseRate => refuseWrite s
  | .params => refuseWrite s

/-- Write a location; the table is read-only to the host (`20_memory.md` R33, R34, R35, R36). -/
def writeLoc (l : Loc) (d : Word) (s : State) : Result :=
  match l with
  | .csr c => writeCsr c d s
  | .res k => acceptWrite { s with res := writeRes s.res k d }
  | .tbl _ => refuseWrite s
  | .sig k => acceptWrite { s with sig := writeBuffer s.cfg.width s.sig k d }
  | .gain k => acceptWrite { s with gain := writeBuffer s.cfg.width s.gain k d }
  | .out k => acceptWrite { s with out := writeBuffer s.cfg.width s.out k d }

/-- `HostWrite(addr, data)` (`20_memory.md` R32, R35). -/
def hostWrite (a : Addr) (d : Word) (s : State) : Result :=
  match locate s.cfg a with
  | some l => writeLoc l d s
  | none => refuseWrite s

/-- One event of the host's stream, whole (`20_memory.md` R32, R40; `70_reset_and_hazards.md` R120). -/
def perform (e : HostEvent) (s : State) : Result :=
  match e with
  | .read a => .next (hostRead a s)
  | .write a d => hostWrite a d s
  | .reset => .next (applyReset s)

/-- The write that issues a command word: `HostWrite(0x00000, c)` (`30_encoding.md` R51). -/
def commandEvent (c : Word) : HostEvent := .write 0x00000#20 c

/-- A table word as a command word: the bits from `nbits` up are 0 (`30_encoding.md` R52). -/
def tableWord (nbits w : Nat) : Word := BitVec.ofNat 32 (w % 2 ^ nbits)

end Machine
end Sys2Proof
end

