-- ==== Sys2Proof/Machine/Script.lean ====
section
/-!
DEFINITION. The script notation and the pseudo-instructions as lists of host events (`30_encoding.md` R57, R58). They
are the host's: no hardware meaning (`92_eei_decisions.md` D25). Log entry 15.
-/

namespace Sys2Proof
namespace Machine

/-- A script line that is a command (`30_encoding.md` R57). -/
def scriptCommand (i : Instr) : List HostEvent := [commandEvent (encode i)]

/-- `wr <loc>, <value>` (`30_encoding.md` R57). -/
def scriptWrite (l : Loc) (v : Word) : List HostEvent := [.write (locAddr l) v]

/-- `rd <loc>` (`30_encoding.md` R57). -/
def scriptRead (l : Loc) : List HostEvent := [.read (locAddr l)]

/-- `envcfg <A>, <R>` (`30_encoding.md` R58). -/
def scriptEnvcfg (a r : Word) : List HostEvent :=
  scriptWrite (.csr .arg0) a ++ scriptWrite (.csr .arg1) r ++ scriptCommand .envcfg

/-- `trigger` (`30_encoding.md` R58). -/
def scriptTrigger : List HostEvent := scriptCommand (.envrun true)

/-- `quantum <fcw>, <trig>` (`30_encoding.md` R58, `70_reset_and_hazards.md` R123). -/
def scriptQuantum (fcw : Half) (trig : Bool) : List HostEvent :=
  scriptCommand (.dcorun fcw) ++ scriptCommand (.envrun trig) ++ scriptCommand .amprun

/-- `wr RES[k], b(4k) + 256 b(4k+1) + 65536 b(4k+2) + 16777216 b(4k+3)` for `k = 0 .. count-1`
(`30_encoding.md` R58). -/
def scriptResource (b : Nat → Byte) : Nat → List HostEvent
  | 0 => []
  | k + 1 => scriptResource b k ++ scriptWrite (.res k) (b (4 * k + 3) ++ b (4 * k + 2) ++ b (4 * k + 1) ++ b (4 * k))

/-- `loadtable <b0>, ..., <b511>`: 128 words, the descriptor `0x80000200`, `tblload` (`30_encoding.md` R58). -/
def scriptLoadtable (b : Nat → Byte) : List HostEvent :=
  scriptResource b 128 ++ scriptWrite (.csr .resDesc) 0x80000200#32 ++ scriptCommand .tblload

/-- `round(f x 65536 / fs) mod 65536`, computed by the assembler (`00_scope.md` R8, `30_encoding.md` R58). -/
def freqWord (f fs : Nat) : Half :=
  let q := f * 65536 / fs
  let r := f * 65536 % fs
  BitVec.ofNat 16 (if 2 * r < fs then q else if fs < 2 * r then q + 1 else if Config.freqTieUp f fs then q + 1 else q)

/-- `dcofreq <f>, <fs>` (`30_encoding.md` R58); a sample rate of 0 has no quotient and is an assembly error. -/
def scriptDcofreq (f fs : Nat) : Option (List HostEvent) :=
  if fs = 0 then none else some (scriptCommand (.dcorun (freqWord f fs)))

end Machine
end Sys2Proof
end

