-- ==== Sys2Proof/Machine/Step.lean ====
section
/-!
DEFINITION. One step: the next event of the host's stream (`20_memory.md` R40, `70_reset_and_hazards.md` R128).
-/

namespace Sys2Proof
namespace Machine

/-- One step. With nothing from the host the block waits and keeps its state (`60_exceptions.md` R115,
`70_reset_and_hazards.md` R120); otherwise the oldest event happens, whole. Log entry 1. -/
def step (s : State) : Host.Outcome State Fault Refusal :=
  match s.inbox with
  | [] => .next s
  | e :: rest => perform e { s with inbox := rest }

/-- The state in which the host's next transaction is the write of a command word to `CMD`: "a command word is
consumed by the very write that delivers it" (`20_memory.md` R42). Log entry 16. -/
def State.withFetchWord (s : State) (nbits w : Nat) : State :=
  { s with inbox := commandEvent (tableWord nbits w) :: s.inbox }

end Machine
end Sys2Proof
end

