-- ==== Sys2Proof/Safety.lean ====
section
/-!
DEFINITION. What the claims call a good state and a safe step: the invariants of the block (`10_state.md` R25) with the
canonical form of its memories, and readiness of each command.
-/

namespace Sys2Proof
namespace Safety

open Machine

/-- Every one of the 256 entries of the table holds a value. -/
abbrev TableFull (s : State) : Prop := ∀ i, i < Config.tableLen → (cellAt s.tbl i).isSome = true

/-- Every one of the 512 bytes of the staging memory has been written. -/
abbrev ResourceFull (s : State) : Prop := ∀ k, k < Config.resBytes → (cellAt s.res k).isSome = true

/-- Elements `0 .. n-1` of a buffer have been written. -/
abbrev BufferFull (n : Nat) (m : Memory 32) : Prop := ∀ k, k < n → (cellAt m k).isSome = true

/-- Every listed element is a value of `W` bits. -/
abbrev ElementsFit (w : Width) (m : Memory 32) : Prop := ∀ c ∈ m, elementBits w c.2 = c.2

/-- Every listed element of a buffer is a gain of at most `0xFFFF` (`43_amplifier.md` R89). -/
abbrev GainsInRange (s : State) : Prop :=
  ∀ k g, k < s.cfg.n → cellAt s.gain k = some g → unsignedElement s.cfg.width g ≤ Config.levelMax

/-- A buffer of the instance: canonical, `N` elements of `W` bits at most (`10_state.md` R16, R25 (c)). -/
structure BufferInv (p : Params) (m : Memory 32) : Prop where
  wf : m.wf
  below : m.below p.n
  fit : ElementsFit p.width m

/-- The invariant of the block (`10_state.md` R25): legal parameters; canonical memories inside their spaces; Off
implies level 0 (f); a valid table implies not halted (g) and is complete (R60 (a)). Parts (a), (b) and (d) of R25 hold
by the types. -/
structure BlockInv (s : State) : Prop where
  legal : s.cfg.Legal
  tblWf : s.tbl.wf
  tblBelow : s.tbl.below Config.tableLen
  resWf : s.res.wf
  resBelow : s.res.below Config.resBytes
  sig : BufferInv s.cfg s.sig
  gain : BufferInv s.cfg s.gain
  out : BufferInv s.cfg s.out
  offLevel : s.envState = .off → s.envLevel = 0#16
  validRuns : s.tblValid = true → s.halt = false
  validFull : s.tblValid = true → TableFull s

/-- `T(i)` as a vector: entry `i` of the table. Where the entry holds no value this is 0, and no claim uses it there
(each claim that names it assumes `TableFull`). -/
def tableValue (s : State) (i : Nat) : Half := (cellAt s.tbl i).getD 0#16

/-- `S(P)`, the oscillator's output function, as a 16-bit vector (`41_oscillator.md` R71). -/
def oscOut (s : State) (p : Half) : Half :=
  sampleBetween s.cfg.mode (tableValue s (index0 p)) (tableValue s (index1 p)) p

/-- `(P0 + m x d) mod 65536` (`41_oscillator.md` R73). -/
def phaseAfter (p d : Half) (m : Nat) : Half := BitVec.ofNat 16 (p.toNat + m * d.toNat)

/-- The state and level of the envelope after `k` samples (`42_envelope.md` R83). -/
def envAfter (attackRate releaseRate : Half) : Nat → EnvState × Half → EnvState × Half
  | 0, u => u
  | k + 1, u =>
    let v := envAfter attackRate releaseRate k u
    envNext attackRate releaseRate v.1 v.2

/-- A sequence of commands, one after the other. -/
def runCommands : List Instr → State → Result
  | [], s => .next s
  | i :: rest, s => andThen (exec i s) (runCommands rest)

/-- A sequence of host events, one after the other (`70_reset_and_hazards.md` R128). -/
def runEvents : List HostEvent → State → Result
  | [], s => .next s
  | e :: rest, s => andThen (perform e s) (runEvents rest)

/-- The event issues this command (`30_encoding.md` R51). -/
def Issues (e : HostEvent) (i : Instr) : Prop := ∃ c, e = commandEvent c ∧ decode c = .ok i

/-- The event is a host write to this location of an instance (`20_memory.md` R31). -/
def WritesLoc (p : Params) (e : HostEvent) (l : Loc) : Prop := ∃ a d, e = .write a d ∧ locate p a = some l

/-- The three sample buffers (`10_state.md` R16). -/
inductive Buffer where
  | sig
  | gain
  | out
  deriving DecidableEq, Repr

/-- The contents of a buffer. -/
def bufferOf : Buffer → State → Memory 32
  | .sig, s => s.sig
  | .gain, s => s.gain
  | .out, s => s.out

/-- The state with other contents of a buffer. -/
def withBuffer : Buffer → Memory 32 → State → State
  | .sig, m, s => { s with sig := m }
  | .gain, m, s => { s with gain := m }
  | .out, m, s => { s with out := m }

/-- The location of element `k` of a buffer. -/
def bufferLoc : Buffer → Nat → Loc
  | .sig, k => .sig k
  | .gain, k => .gain k
  | .out, k => .out k

/-- The valid element numbers of each space (`20_memory.md` R31). -/
def ValidLoc (p : Params) : Loc → Prop
  | .csr _ => True
  | .res k => k < 128
  | .tbl k => k < 256
  | .sig k => k < p.n
  | .gain k => k < p.n
  | .out k => k < p.n

/-- The step has a result: no fault and no refusal (`70_reset_and_hazards.md` R128). -/
def StepSafe (s : State) : Prop := ∃ t, step s = .next t

end Safety
end Sys2Proof
end

