-- ==== Sys2Proof/Certificates/Slice0/Obligations.lean ====
section
/-!
DEFINITION. The statements for the provers, each with the rule of the spec that it formalises. The title and the rule
of each stand in OBLIGATIONS.json.
-/

open Sys2Proof Sys2Proof.Machine Sys2Proof.Safety

/-! ## Decoding -/

/-- The words of `95_test_vectors.md` section 4 decode as the vectors say. -/
def Obligations.VectorWordsDecode : Prop :=
  decode 0x10000000#32 = .ok .tblload ∧ decode 0x20000000#32 = .ok .dcoinit
    ∧ decode 0x30000555#32 = .ok (.dcorun 1365#16) ∧ decode 0x3000FFFF#32 = .ok (.dcorun 65535#16)
    ∧ decode 0x40000000#32 = .ok .envcfg ∧ decode 0x50000000#32 = .ok (.envrun false)
    ∧ decode 0x50000001#32 = .ok (.envrun true) ∧ decode 0x60000000#32 = .ok .amprun
    ∧ decode 0x00000000#32 = .error .unusedOpcode ∧ decode 0x70000000#32 = .error .unusedOpcode
    ∧ decode 0x10000001#32 = .error .nonzeroMustBeZero ∧ decode 0x30010000#32 = .error .nonzeroMustBeZero
    ∧ decode 0x50000002#32 = .error .nonzeroMustBeZero

/-- `30_encoding.md` R54: the six rows of the opcode map, each as mask and match, and the number of legal words. -/
def Obligations.DecoderIsTheOpcodeMap : Prop :=
  (∀ c, decode c = .ok .tblload ↔ c &&& 0xFFFFFFFF#32 = 0x10000000#32)
    ∧ (∀ c, decode c = .ok .dcoinit ↔ c &&& 0xFFFFFFFF#32 = 0x20000000#32)
    ∧ (∀ c f, decode c = .ok (.dcorun f) ↔ c &&& 0xFFFF0000#32 = 0x30000000#32 ∧ f = c.extractLsb' 0 16)
    ∧ (∀ c, decode c = .ok .envcfg ↔ c &&& 0xFFFFFFFF#32 = 0x40000000#32)
    ∧ (∀ c b, decode c = .ok (.envrun b) ↔ c &&& 0xFFFFFFFE#32 = 0x50000000#32 ∧ b = c.getLsbD 0)
    ∧ (∀ c, decode c = .ok .amprun ↔ c &&& 0xFFFFFFFF#32 = 0x60000000#32)
    ∧ Set.ncard {c : Word | ∃ i, decode c = .ok i} = 65542

/-- Decoding the word of an instruction gives the instruction back, with every operand at every value. -/
def Obligations.DecodeOfEncodeIsIdentity : Prop := ∀ i, decode (encode i) = .ok i

/-- A word that decodes is the word of what it decodes to: each instruction has one word. -/
def Obligations.EncodeOfDecodeIsIdentity : Prop := ∀ c i, decode c = .ok i → encode i = c

/-- `30_encoding.md` R55: the illegal words, and that an illegal word changes `LASTERR` alone. -/
def Obligations.IllegalWordsChangeOnlyLasterr : Prop :=
  (∀ c : Word, (∃ r, decode c = .error r) ↔ ∀ i ∈ rowsOf c, c &&& rowMask i ≠ rowMatch i)
    ∧ (∀ c : Word, (c.extractLsb' 28 4).toNat = 0 ∨ 7 ≤ (c.extractLsb' 28 4).toNat → ∃ r, decode c = .error r)
    ∧ (∀ c : Word, (c.extractLsb' 28 4).toNat ∈ [1, 2, 4, 6] → c.extractLsb' 0 28 ≠ 0#28 → ∃ r, decode c = .error r)
    ∧ (∀ c : Word, c.extractLsb' 28 4 = 3#4 → c.extractLsb' 16 12 ≠ 0#12 → ∃ r, decode c = .error r)
    ∧ (∀ c : Word, c.extractLsb' 28 4 = 5#4 → c.extractLsb' 1 27 ≠ 0#27 → ∃ r, decode c = .error r)
    ∧ ∀ c r s, decode c = .error r → s.halt = false → issueCommand c s = .next { s with lastErr := .eIllegal }

/-! ## Issue, dispatch, completion -/

/-- `30_encoding.md` R51: a step on a write to `CMD` dispatches the word and answers with the completion code. -/
def Obligations.StepRunsTheIssuedCommand : Prop :=
  ∀ s c rest, s.inbox = commandEvent c :: rest →
    (s.halt = true → step s = .next { s with
      inbox := rest, lastErr := .eHalted, answers := s.answers ++ [.written .eHalted] })
    ∧ (∀ r, s.halt = false → decode c = .error r → step s = .next { s with
      inbox := rest, lastErr := .eIllegal, answers := s.answers ++ [.written .eIllegal] })
    ∧ (∀ i, decode c = .ok i → step s =
      match exec i { s with inbox := rest } with
      | .next t => .next { t with answers := t.answers ++ [.written t.lastErr] }
      | .fault e => .fault e
      | .refused e => .refused e)

/-- `20_memory.md` R40: a step is the oldest event of the host's stream, whole; with no event the block keeps its
state. -/
def Obligations.StepPerformsTheOldestEvent : Prop :=
  (∀ s, s.inbox = [] → step s = .next s)
    ∧ ∀ s e rest, s.inbox = e :: rest → step s = perform e { s with inbox := rest }

/-- `60_exceptions.md` R103: the order in which the codes apply. -/
def Obligations.CodesHaveTheirPriority : Prop :=
  (∀ s c, s.halt = true → issueCommand c s = .next { s with lastErr := .eHalted })
    ∧ (∀ s c r, s.halt = false → decode c = .error r → issueCommand c s = .next { s with lastErr := .eIllegal })
    ∧ (∀ s, s.halt = false → s.tblValid = true → exec .tblload s = .next { s with lastErr := .eState })
    ∧ (∀ s f, s.halt = false → s.tblValid = false → exec (.dcorun f) s = .next { s with lastErr := .eState })
    ∧ (∀ s b, s.halt = false → s.envCfg = false → exec (.envrun b) s = .next { s with lastErr := .eState })
    ∧ (∀ s, s.halt = false → s.tblValid = false →
        (s.resDesc.getLsbD 31 = false ∨ (s.resDesc.extractLsb' 0 31).toNat ≠ 512) →
        exec .tblload s = .next { s with halt := true, lastErr := .eResource })
    ∧ (∀ s, s.halt = false → (s.arg0 = 0#32 ∨ s.arg1 = 0#32) → exec .envcfg s = .next { s with lastErr := .eConfig })
    ∧ ∀ i s t, s.halt = false → exec i s = .next t →
      (i = .tblload → s.tblValid = false ∧ s.resDesc.getLsbD 31 = true ∧ (s.resDesc.extractLsb' 0 31).toNat = 512) →
      ((∃ f, i = .dcorun f) → s.tblValid = true) → ((∃ b, i = .envrun b) → s.envCfg = true) →
      (i = .envcfg → s.arg0 ≠ 0#32 ∧ s.arg1 ≠ 0#32) → t.lastErr = .ok

/-- `60_exceptions.md` R100: a command that fails changes nothing but `LASTERR`, and `HALT` for `E_RESOURCE`. -/
def Obligations.FailedCommandsChangeOnlyTheCode : Prop :=
  ∀ i s t, exec i s = .next t → t.lastErr ≠ .ok →
    t = { s with lastErr := t.lastErr, halt := t.halt }
      ∧ (t.lastErr = .eResource → t.halt = true) ∧ (t.lastErr ≠ .eResource → t.halt = s.halt)

/-- `60_exceptions.md` R101: the codes each command can complete with, and the two that no command gives. -/
def Obligations.EachCommandHasItsCodes : Prop :=
  (∀ s t, exec .dcoinit s = .next t → t.lastErr ∈ [Code.ok, .eHalted])
    ∧ (∀ s t, exec .amprun s = .next t → t.lastErr ∈ [Code.ok, .eHalted])
    ∧ (∀ f s t, exec (.dcorun f) s = .next t → t.lastErr ∈ [Code.ok, .eState, .eHalted])
    ∧ (∀ b s t, exec (.envrun b) s = .next t → t.lastErr ∈ [Code.ok, .eState, .eHalted])
    ∧ (∀ s t, exec .envcfg s = .next t → t.lastErr ∈ [Code.ok, .eConfig, .eHalted])
    ∧ (∀ s t, exec .tblload s = .next t → t.lastErr ∈ [Code.ok, .eResource, .eState, .eHalted])

/-- `60_exceptions.md` R106: a halted block answers every command with `E_HALTED`, still serves the bus, and only
reset clears `HALT`. -/
def Obligations.OnlyResetClearsHalt : Prop :=
  (∀ s c, s.halt = true → perform (commandEvent c) s = .next { s with
      lastErr := .eHalted, answers := s.answers ++ [.written .eHalted] })
    ∧ (∀ es s t, s.halt = true → HostEvent.reset ∉ es → runEvents es s = .next t → t.halt = true)
    ∧ (∀ s d, perform (.write 0x00008#20 d) s = .next { s with arg0 := d, answers := s.answers ++ [.written .ok] })
    ∧ (∀ s, perform (.read 0x00014#20) s = .next { s with
        answers := s.answers ++ [.readData (s.phase.setWidth 32) .ok] })
    ∧ ∀ s t, perform .reset s = .next t → t.halt = false

/-! ## TBLLOAD -/

/-- `40_sinetable.md` R60: every outcome of `TBLLOAD`, with the model's fault on a byte that nothing has written
(R60 (e), log entry 6). -/
def Obligations.TblloadLoadsTheWholeTable : Prop :=
  ∀ s,
    (s.halt = true → exec .tblload s = .next { s with lastErr := .eHalted })
    ∧ (s.halt = false → s.tblValid = true → exec .tblload s = .next { s with lastErr := .eState })
    ∧ (s.halt = false → s.tblValid = false →
        (s.resDesc.getLsbD 31 = false ∨ (s.resDesc.extractLsb' 0 31).toNat ≠ 512) →
        exec .tblload s = .next { s with halt := true, lastErr := .eResource })
    ∧ (s.halt = false → s.tblValid = false → s.resDesc.getLsbD 31 = true →
        (s.resDesc.extractLsb' 0 31).toNat = 512 → ResourceFull s →
        ∃ tbl', exec .tblload s = .next { s with tbl := tbl', tblValid := true, lastErr := .ok }
          ∧ (∀ i low high, i < 256 → cellAt s.res (2 * i) = some low → cellAt s.res (2 * i + 1) = some high →
              cellAt tbl' i = some (high ++ low))
          ∧ ∀ i, 256 ≤ i → cellAt tbl' i = cellAt s.tbl i)
    ∧ ∀ k, s.halt = false → s.tblValid = false → s.resDesc.getLsbD 31 = true →
        (s.resDesc.extractLsb' 0 31).toNat = 512 → k < 512 → cellAt s.res k = none →
        exec .tblload s = .fault .unwrittenResource

/-- `40_sinetable.md` R62: once valid, the table is fixed until reset. -/
def Obligations.ValidTableIsImmutable : Prop :=
  ∀ es s t, s.tblValid = true → HostEvent.reset ∉ es → runEvents es s = .next t → t.tbl = s.tbl ∧ t.tblValid = true

/-! ## Oscillator -/

/-- `41_oscillator.md` R70: `DCOINIT` zeroes the phase and nothing else; twice is the same as once. -/
def Obligations.DcoinitZeroesThePhase : Prop :=
  ∀ s,
    (s.halt = true → exec .dcoinit s = .next { s with lastErr := .eHalted })
    ∧ (s.halt = false → exec .dcoinit s = .next { s with phase := 0#16, lastErr := .ok })
    ∧ (s.halt = false → andThen (exec .dcoinit s) (exec .dcoinit) = exec .dcoinit s)

/-- `41_oscillator.md` R71: the fields of the phase and the output function `S(P)`. -/
def Obligations.PhaseSplitsIntoIndexAndWeight : Prop :=
  ∀ p : Half,
    index0 p = p.toNat / 256 ∧ index1 p = (p.toNat / 256 + 1) % 256 ∧ weight p = p.toNat % 256
    ∧ (index0 p = 255 → index1 p = 0)
    ∧ (∀ mode (v0 v1 : Half), (sampleBetween mode v0 v1 p).toInt = interp mode v0.toInt v1.toInt (weight p))
    ∧ (∀ mode (v0 v1 : Half), weight p = 0 → sampleBetween mode v0 v1 p = v0)
    ∧ (∀ s, (oscOut s p).toInt
        = interp s.cfg.mode (tableValue s (index0 p)).toInt (tableValue s (index1 p)).toInt (weight p))
    ∧ ∀ s, weight p = 0 → oscOut s p = tableValue s (index0 p)

/-- `41_oscillator.md` R72: every outcome of `DCORUN`, with the frame. -/
def Obligations.DcorunFillsTheSignalBuffer : Prop :=
  ∀ fcw s,
    (s.halt = true → exec (.dcorun fcw) s = .next { s with lastErr := .eHalted })
    ∧ (s.halt = false → s.tblValid = false → exec (.dcorun fcw) s = .next { s with lastErr := .eState })
    ∧ (s.halt = false → s.tblValid = true → TableFull s →
        ∃ sig', exec (.dcorun fcw) s = .next { s with
            sig := sig', phase := phaseAfter s.phase fcw s.cfg.n, lastErr := .ok }
          ∧ (∀ n, n < s.cfg.n →
              cellAt sig' n = some (sextElement s.cfg.width (oscOut s (phaseAfter s.phase fcw n))))
          ∧ ∀ n, s.cfg.n ≤ n → cellAt sig' n = cellAt s.sig n)

/-- `41_oscillator.md` R73: commands with one word, issued one after the other, produce the samples of the running
phase, and the concatenation is what one command of an instance with a longer buffer produces. -/
def Obligations.CommandsArePhaseContinuous : Prop :=
  ∀ d s k, s.halt = false → s.tblValid = true → TableFull s →
    ∃ t u, runCommands (List.replicate (k + 1) (.dcorun d)) s = .next t
      ∧ t.phase = phaseAfter s.phase d ((k + 1) * s.cfg.n)
      ∧ exec (.dcorun d) { s with cfg := { s.cfg with n := (k + 1) * s.cfg.n } } = .next u
      ∧ u.phase = t.phase
      ∧ ∀ n, n < s.cfg.n →
          cellAt t.sig n = some (sextElement s.cfg.width (oscOut s (phaseAfter s.phase d (k * s.cfg.n + n))))
          ∧ cellAt u.sig (k * s.cfg.n + n) = cellAt t.sig n

/-- `41_oscillator.md` R73: with a different word each time, command `j` starts at the phase where command `j - 1`
ended. -/
def Obligations.PhaseSumsTheIssuedWords : Prop :=
  ∀ (ds : List Half) s, s.halt = false → s.tblValid = true → TableFull s →
    ∃ t, runCommands (ds.map .dcorun) s = .next t
      ∧ t.phase = BitVec.ofNat 16 (s.phase.toNat + s.cfg.n * (ds.map BitVec.toNat).sum)

/-- `41_oscillator.md` R74: after the last entry comes the first, and no index leaves `[0, 255]`. -/
def Obligations.TableWrapsAtItsEnd : Prop :=
  (∀ p : Half, index0 p ≤ 255 ∧ index1 p ≤ 255)
    ∧ ∀ fcw n s v255 v0, index0 s.phase = 255 → cellAt s.tbl 255 = some v255 → cellAt s.tbl 0 = some v0 →
      dcoSample fcw n s = .next { s with
        sig := setCell s.sig n (sextElement s.cfg.width
          (BitVec.ofInt 16 (interp s.cfg.mode v255.toInt v0.toInt (weight s.phase))))
        phase := BitVec.ofNat 16 (s.phase.toNat + fcw.toNat) }

/-- `41_oscillator.md` R75: `DCORUN 0` fills `SIG` with copies of `S(PHASE)` and leaves the phase; at phase 0 that is
`T(0)` in every rounding mode. -/
def Obligations.ZeroWordGivesAConstant : Prop :=
  ∀ s, s.halt = false → s.tblValid = true → TableFull s →
    ∃ t, exec (.dcorun 0#16) s = .next t ∧ t.phase = s.phase
      ∧ (∀ n, n < s.cfg.n → cellAt t.sig n = some (sextElement s.cfg.width (oscOut s s.phase)))
      ∧ (s.phase = 0#16 → ∀ n, n < s.cfg.n →
          cellAt t.sig n = some (sextElement s.cfg.width (tableValue s 0)))

/-- `41_oscillator.md` R76: no sample leaves the interval between its two table entries, and storing it discards
nothing. -/
def Obligations.SamplesStayBetweenTheirEntries : Prop :=
  ∀ fcw s, s.halt = false → s.tblValid = true → TableFull s →
    ∃ t, exec (.dcorun fcw) s = .next t ∧ ∀ n, n < s.cfg.n →
      let p := phaseAfter s.phase fcw n
      ∃ v, cellAt t.sig n = some v
        ∧ min (tableValue s (index0 p)).toInt (tableValue s (index1 p)).toInt ≤ signedElement s.cfg.width v
        ∧ signedElement s.cfg.width v ≤ max (tableValue s (index0 p)).toInt (tableValue s (index1 p)).toInt
        ∧ (-32768 ≤ signedElement s.cfg.width v ∧ signedElement s.cfg.width v ≤ 32767)
        ∧ signedElement s.cfg.width v
            = interp s.cfg.mode (tableValue s (index0 p)).toInt (tableValue s (index1 p)).toInt (weight p)

/-- `10_state.md` R12: only `DCORUN`, `DCOINIT` and reset change the phase; the host cannot write it. -/
def Obligations.OnlyTheOscillatorMovesThePhase : Prop :=
  ∀ e s t, perform e s = .next t → e ≠ .reset → ¬ Issues e .dcoinit → (∀ f, ¬ Issues e (.dcorun f)) →
    t.phase = s.phase

/-! ## Interpolator -/

/-- `44_interpolator.md` R90: the ranges of the intermediate values and of the result. -/
def Obligations.InterpolatorWidthsAreExact : Prop :=
  ∀ mode (v0 v1 : Int) (w : Nat), -32768 ≤ v0 → v0 ≤ 32767 → -32768 ≤ v1 → v1 ≤ 32767 → w ≤ 255 →
    (-65535 ≤ v1 - v0 ∧ v1 - v0 ≤ 65535)
    ∧ (-16711425 ≤ (v1 - v0) * w ∧ (v1 - v0) * w ≤ 16711425)
    ∧ interpNum v0 v1 w = 256 * v0 + (v1 - v0) * w
    ∧ (-8388608 ≤ interpNum v0 v1 w ∧ interpNum v0 v1 w ≤ 8388352)
    ∧ (256 * min v0 v1 ≤ interpNum v0 v1 w ∧ interpNum v0 v1 w ≤ 256 * max v0 v1)
    ∧ interp mode v0 v1 w = roundDiv256 mode (interpNum v0 v1 w)
    ∧ (min v0 v1 ≤ interp mode v0 v1 w ∧ interp mode v0 v1 w ≤ max v0 v1)
    ∧ (-32768 ≤ interp mode v0 v1 w ∧ interp mode v0 v1 w ≤ 32767)

/-- `44_interpolator.md` R91: the four modes; three are the nearest integer and agree off ties, `FLOOR` drops the
fraction. -/
def Obligations.RoundingModesAreTheFour : Prop :=
  (modeBits .halfUp = 0 ∧ modeBits .floor = 1 ∧ modeBits .halfEven = 2 ∧ modeBits .halfAway = 3
      ∧ Config.defaultParams.mode = .halfUp)
    ∧ ∀ num : Int, roundDiv256 .halfUp num = (num + 128) / 256
    ∧ roundDiv256 .floor num = num / 256
    ∧ (num % 256 ≠ 128 → roundDiv256 .halfEven num = roundDiv256 .halfUp num
        ∧ roundDiv256 .halfAway num = roundDiv256 .halfUp num)
    ∧ (num % 256 = 128 → roundDiv256 .halfEven num % 2 = 0
        ∧ (num > 0 → roundDiv256 .halfAway num = num / 256 + 1)
        ∧ (num < 0 → roundDiv256 .halfAway num = num / 256))
    ∧ (∀ mode, mode ≠ .floor → |256 * roundDiv256 mode num - num| ≤ 128)
    ∧ (∀ mode, num % 256 < 128 → roundDiv256 mode num = roundDiv256 .floor num)
    ∧ (∀ mode, mode ≠ .floor → num % 256 > 128 → roundDiv256 mode num = roundDiv256 .floor num + 1)

/-- `44_interpolator.md` R92: where all modes agree, where ties occur, and the examples. -/
def Obligations.RoundingModesAgreeOffTies : Prop :=
  (∀ mode (v0 v1 : Int), interp mode v0 v1 0 = v0)
    ∧ (∀ mode (v : Int) (w : Nat), interp mode v v w = v)
    ∧ (∀ mode (v0 v1 : Int) (w : Nat), (v1 - v0) * w % 256 = 0 → interp mode v0 v1 w = v0 + (v1 - v0) * w / 256)
    ∧ (∀ mode mode' (v0 v1 : Int) (w : Nat), interpNum v0 v1 w % 256 < 128 →
        interp mode v0 v1 w = interp mode' v0 v1 w)
    ∧ (∀ (v0 v1 : Int) (w : Nat), interpNum v0 v1 w % 256 = 128 ↔ (v1 - v0) * w % 256 = 128)
    ∧ (∀ v0 v1 : Int, (v1 - v0) % 2 = 1 → interpNum v0 v1 128 % 256 = 128)
    ∧ (interp .halfUp 0 1 128 = 1 ∧ interp .floor 0 1 128 = 0 ∧ interp .halfEven 0 1 128 = 0
        ∧ interp .halfAway 0 1 128 = 1)
    ∧ (interp .halfUp 0 (-1) 128 = 0 ∧ interp .floor 0 (-1) 128 = -1 ∧ interp .halfEven 0 (-1) 128 = 0
        ∧ interp .halfAway 0 (-1) 128 = -1)
    ∧ ∀ mode, interp mode 100 200 64 = 125

/-- `44_interpolator.md` R93: interpolation never overshoots. -/
def Obligations.InterpolationNeverOvershoots : Prop :=
  ∀ mode (v0 v1 : Int) (w : Nat), w ≤ 255 → min v0 v1 ≤ interp mode v0 v1 w ∧ interp mode v0 v1 w ≤ max v0 v1

/-! ## Envelope -/

/-- `42_envelope.md` R80: every outcome of `ENVCFG`. -/
def Obligations.EnvcfgDividesBothTimes : Prop :=
  ∀ s,
    (s.halt = true → exec .envcfg s = .next { s with lastErr := .eHalted })
    ∧ (s.halt = false → (s.arg0 = 0#32 ∨ s.arg1 = 0#32) → exec .envcfg s = .next { s with lastErr := .eConfig })
    ∧ (s.halt = false → s.arg0 ≠ 0#32 → s.arg1 ≠ 0#32 → ∃ a r : Half,
        a.toNat = 65535 / s.arg0.toNat ∧ r.toNat = 65535 / s.arg1.toNat
        ∧ exec .envcfg s = .next { s with attackRate := a, releaseRate := r, envCfg := true, lastErr := .ok })

/-- `10_state.md` R15: the rates' range, and that only a successful `ENVCFG` writes them. -/
def Obligations.RatesAreWrittenByEnvcfgAlone : Prop :=
  (∀ x : Word, x ≠ 0#32 → (rateOf x).toNat = 65535 / x.toNat)
    ∧ rateOf 1#32 = 0xFFFF#16
    ∧ (∀ x : Word, 0x10000 ≤ x.toNat → rateOf x = 0#16)
    ∧ ∀ e s t, perform e s = .next t → e ≠ .reset →
      (t.attackRate ≠ s.attackRate ∨ t.releaseRate ≠ s.releaseRate ∨ t.envCfg ≠ s.envCfg) →
      Issues e .envcfg ∧ t.lastErr = .ok ∧ t.envCfg = true

/-- `42_envelope.md` R82: the transition table. -/
def Obligations.EnvelopeTransitionsAreComplete : Prop :=
  (∀ s, applyTrigger true s = { s with envState := .attack } ∧ applyTrigger false s = s)
    ∧ ∀ a r l : Half,
      (l.toNat + a.toNat > 0xFFFF → envNext a r .attack l = (.release, 0xFFFF#16))
      ∧ (l.toNat + a.toNat ≤ 0xFFFF → ∃ l' : Half, l'.toNat = l.toNat + a.toNat ∧ envNext a r .attack l = (.attack, l'))
      ∧ (l.toNat < r.toNat → envNext a r .release l = (.off, 0#16))
      ∧ (r.toNat ≤ l.toNat → ∃ l' : Half, l'.toNat = l.toNat - r.toNat ∧ envNext a r .release l = (.release, l'))
      ∧ envNext a r .off l = (.off, 0#16)

/-- `42_envelope.md` R81: every outcome of `ENVRUN`, with the frame; the level written at sample `n` is the level
after that sample's update. -/
def Obligations.EnvrunFillsTheGainBuffer : Prop :=
  ∀ trig s,
    let start := (if trig then EnvState.attack else s.envState, s.envLevel)
    (s.halt = true → exec (.envrun trig) s = .next { s with lastErr := .eHalted })
    ∧ (s.halt = false → s.envCfg = false → exec (.envrun trig) s = .next { s with lastErr := .eState })
    ∧ (s.halt = false → s.envCfg = true →
        ∃ gain', exec (.envrun trig) s = .next { s with
            gain := gain'
            envState := (envAfter s.attackRate s.releaseRate s.cfg.n start).1
            envLevel := (envAfter s.attackRate s.releaseRate s.cfg.n start).2
            lastErr := .ok }
          ∧ (∀ n, n < s.cfg.n → cellAt gain' n =
              some (zextElement s.cfg.width (envAfter s.attackRate s.releaseRate (n + 1) start).2))
          ∧ ∀ n, s.cfg.n ≤ n → cellAt gain' n = cellAt s.gain n)

/-- `42_envelope.md` R83: the closed forms of the attack and of the release. -/
def Obligations.EnvelopeHasItsClosedForms : Prop :=
  (∀ (a r l0 : Half) (k : Nat), l0.toNat + k * a.toNat ≤ 65535 →
      envAfter a r k (.attack, l0) = (.attack, BitVec.ofNat 16 (l0.toNat + k * a.toNat)))
    ∧ (∀ a r l0 : Half, 1 ≤ a.toNat →
      envAfter a r ((65535 - l0.toNat) / a.toNat + 1) (.attack, l0) = (.release, 0xFFFF#16))
    ∧ (∀ (a r l1 : Half) (k : Nat), k * r.toNat ≤ l1.toNat →
      envAfter a r k (.release, l1) = (.release, BitVec.ofNat 16 (l1.toNat - k * r.toNat)))
    ∧ (∀ a r l1 : Half, 1 ≤ r.toNat → envAfter a r (l1.toNat / r.toNat + 1) (.release, l1) = (.off, 0#16))
    ∧ (∀ (r l : Half) (k : Nat), envAfter 0#16 r k (.attack, l) = (.attack, l))
    ∧ (∀ s, s.envState = .attack → applyTrigger true s = s)
    ∧ (∀ a r l : Half, l.toNat ≤ (envNext a r .attack l).2.toNat ∧ (envNext a r .release l).2.toNat ≤ l.toNat)
    ∧ (∀ (time : Nat) (r : Half), 1 ≤ time → time ≤ 65535 →
      envAfter (BitVec.ofNat 16 (65535 / time)) r time (.attack, 0#16)
        = (.attack, BitVec.ofNat 16 (time * (65535 / time))))
    ∧ (∀ time : Nat, 1 ≤ time → time ≤ 65535 →
      (65535 - time < time * (65535 / time) ∧ time * (65535 / time) ≤ 65535)
      ∧ (time * (65535 / time) = 65535 ↔ time ∣ 65535)
      ∧ time + 1 ≤ 65535 / (65535 / time) + 1)

/-- `42_envelope.md` R84 (c), (d): the idle envelope stays idle, and a rate of 0 never moves the level. -/
def Obligations.IdleAndZeroRateEnvelopesStay : Prop :=
  (∀ (a r l : Half) (k : Nat), envAfter a r (k + 1) (.off, l) = (.off, 0#16))
    ∧ (∀ (a r : Half) (k : Nat), 1 ≤ r.toNat → envAfter a r (k + 1) (.release, 0#16) = (.off, 0#16))
    ∧ (∀ (r l : Half) (k : Nat), envAfter 0#16 r k (.attack, l) = (.attack, l))
    ∧ ∀ (a l : Half) (k : Nat), envAfter a 0#16 k (.release, l) = (.release, l)

/-- `42_envelope.md` R84 (e): the document's end-to-end example, rates 3276 and 6, at the samples the rule names. -/
def Obligations.EndToEndEnvelopeExample : Prop :=
  rateOf 20#32 = 3276#16 ∧ rateOf 10000#32 = 6#16
    ∧ (∀ k, k ≤ 20 → envAfter 3276#16 6#16 k (.attack, 0#16) = (.attack, BitVec.ofNat 16 (3276 * k)))
    ∧ envAfter 3276#16 6#16 21 (.attack, 0#16) = (.release, 65535#16)
    ∧ (∀ j, j ≤ 10922 →
        envAfter 3276#16 6#16 (21 + j) (.attack, 0#16) = (.release, BitVec.ofNat 16 (65535 - 6 * j)))
    ∧ ∀ j, envAfter 3276#16 6#16 (10944 + j) (.attack, 0#16) = (.off, 0#16)

/-! ## Amplifier -/

/-- `43_amplifier.md` R85: `AMPRUN` completes when every element is written and every gain in range; the value stored
at each element is the floor of the exact product over 65536. An unwritten element makes the model fault (R85, U3, log
entry 4). -/
def Obligations.AmprunMultipliesElementwise : Prop :=
  ∀ s,
    (s.halt = true → exec .amprun s = .next { s with lastErr := .eHalted })
    ∧ (s.halt = false → BufferFull s.cfg.n s.sig → BufferFull s.cfg.n s.gain → GainsInRange s →
        ∃ out', exec .amprun s = .next { s with out := out', lastErr := .ok }
          ∧ (∀ n x g, n < s.cfg.n → cellAt s.sig n = some x → cellAt s.gain n = some g →
              ∃ y, cellAt out' n = some y
                ∧ signedElement s.cfg.width y
                    = signedElement s.cfg.width x * (unsignedElement s.cfg.width g : Int) / 65536
                ∧ elementBits s.cfg.width y = y)
          ∧ ∀ n, s.cfg.n ≤ n → cellAt out' n = cellAt s.out n)
    ∧ ∀ n, s.halt = false → GainsInRange s → n < s.cfg.n → (cellAt s.sig n = none ∨ cellAt s.gain n = none) →
        exec .amprun s = .fault .unwrittenElement

/-- `43_amplifier.md` R86: the product fits `W + 16` bits, the shifted value lies between the input and 0 and fits `W`
bits. -/
def Obligations.AmplifierNeverOverflows : Prop :=
  ∀ (w : Width) (v : Word) (g : Nat), g ≤ 0xFFFF →
    let x := signedElement w v
    (-2 ^ (widthBits w - 1) ≤ x ∧ x ≤ 2 ^ (widthBits w - 1) - 1)
    ∧ (-2 ^ (widthBits w - 1) * 65535 ≤ x * g ∧ x * g ≤ (2 ^ (widthBits w - 1) - 1) * 65535)
    ∧ (-2 ^ (widthBits w + 15) ≤ x * g ∧ x * g < 2 ^ (widthBits w + 15))
    ∧ (x ≤ 0 → x ≤ amplify x g ∧ amplify x g ≤ 0)
    ∧ (0 ≤ x → 0 ≤ amplify x g ∧ amplify x g ≤ x)
    ∧ (1 ≤ x → amplify x g ≤ x - 1)
    ∧ |amplify x g| ≤ |x|
    ∧ signedElement w (elementOfInt w (amplify x g)) = amplify x g

/-- `43_amplifier.md` R87: zero gain, the largest gain, and monotonicity in the gain. -/
def Obligations.AmplifierGainLaws : Prop :=
  (∀ x, amplify x 0 = 0)
    ∧ (∀ x, 0 ≤ x → amplify x 0xFFFF = x - (x + 65535) / 65536)
    ∧ (∀ x, x ≤ 0 → amplify x 0xFFFF = x + (-x) / 65536)
    ∧ (∀ x, -65535 ≤ x → x ≤ 0 → amplify x 0xFFFF = x)
    ∧ (∀ x, 1 ≤ x → x ≤ 65536 → amplify x 0xFFFF = x - 1)
    ∧ (∀ x (g g' : Nat), 0 ≤ x → g ≤ g' → amplify x g ≤ amplify x g')
    ∧ ∀ x (g g' : Nat), x < 0 → g ≤ g' → amplify x g' ≤ amplify x g

/-- `43_amplifier.md` R89: the gain range holds by width for `W = 16` and for whatever `ENVRUN` wrote, and a gain above
it makes the model fault. -/
def Obligations.GainAboveRangeFaults : Prop :=
  (∀ v : Word, unsignedElement .w16 v ≤ 0xFFFF)
    ∧ (∀ b s t, exec (.envrun b) s = .next t → t.lastErr = .ok → GainsInRange t)
    ∧ ∀ s n g, s.halt = false → s.cfg.width = .w32 → BufferFull s.cfg.n s.sig → BufferFull s.cfg.n s.gain →
      n < s.cfg.n → cellAt s.gain n = some g → 0xFFFF < g.toNat → exec .amprun s = .fault .gainAboveRange

/-- `43_amplifier.md` R88: an instance is legal exactly if its three lengths agree, its three widths agree and both are
legal; a mismatch is LengthMismatchError. -/
def Obligations.MismatchedInstancesAreRejected : Prop :=
  (∀ r, ¬ (r.lenSig = r.lenGain ∧ r.lenGain = r.lenOut) → buildInstance r = .rejected .eLength)
    ∧ (∀ r, ¬ (r.widthSig = r.widthGain ∧ r.widthGain = r.widthOut) → buildInstance r = .rejected .eLength)
    ∧ (∀ r p, buildInstance r = .built p ↔
        (r.lenSig = p.n ∧ r.lenGain = p.n ∧ r.lenOut = p.n ∧ r.widthSig = widthBits p.width
          ∧ r.widthGain = widthBits p.width ∧ r.widthOut = widthBits p.width ∧ r.mode = p.mode ∧ p.Legal))
    ∧ ∀ i s t, exec i s = .next t → t.lastErr ≠ .eLength

/-! ## One quantum -/

/-- `70_reset_and_hazards.md` R124: `DCORUN` and `ENVRUN` may be issued in either order. -/
def Obligations.OscillatorAndEnvelopeCommute : Prop :=
  ∀ s f b, s.halt = false → s.tblValid = true → s.envCfg = true →
    andThen (exec (.dcorun f) s) (exec (.envrun b)) = andThen (exec (.envrun b) s) (exec (.dcorun f))

/-- `70_reset_and_hazards.md` R123: the three commands of a quantum complete, and `OUT` holds the products of the
`SIG` and `GAIN` just computed. -/
def Obligations.QuantumMultipliesToneByEnvelope : Prop :=
  ∀ s f b, s.halt = false → s.tblValid = true → TableFull s → s.envCfg = true →
    ∃ t, runCommands [.dcorun f, .envrun b, .amprun] s = .next t ∧ t.lastErr = .ok ∧ ∀ n, n < s.cfg.n →
      ∃ x g y, cellAt t.sig n = some x ∧ cellAt t.gain n = some g ∧ cellAt t.out n = some y
        ∧ x = sextElement s.cfg.width (oscOut s (phaseAfter s.phase f n))
        ∧ g = zextElement s.cfg.width (envAfter s.attackRate s.releaseRate (n + 1)
            (if b then EnvState.attack else s.envState, s.envLevel)).2
        ∧ signedElement s.cfg.width y
            = signedElement s.cfg.width x * (unsignedElement s.cfg.width g : Int) / 65536

/-! ## Host port -/

/-- `20_memory.md` R31: the address map: each valid element has the address of the map, and nothing else is mapped. -/
def Obligations.AddressMapIsExact : Prop :=
  ∀ p : Params, p.Legal →
    (∀ l, ValidLoc p l → locate p (locAddr l) = some l)
    ∧ (∀ a l, locate p a = some l → ValidLoc p l ∧ a = locAddr l)
    ∧ (∀ c, (locAddr (.csr c)).toNat = 4 * csrNumber c ∧ csrNumber c ≤ 9)
    ∧ (∀ k, k < 128 → (locAddr (.res k)).toNat = 0x10000 + 4 * k)
    ∧ (∀ k, k < 256 → (locAddr (.tbl k)).toNat = 0x20000 + 4 * k)
    ∧ ∀ k, k < p.n → (locAddr (.sig k)).toNat = 0x30000 + 4 * k
        ∧ (locAddr (.gain k)).toNat = 0x40000 + 4 * k ∧ (locAddr (.out k)).toNat = 0x50000 + 4 * k

/-- `20_memory.md` R35: a refused transaction changes no state and answers `E_BUS`, a refused read with data 0. -/
def Obligations.RefusedAccessesChangeNothing : Prop :=
  ∀ s a,
    (locate s.cfg a = none ∨ a.extractLsb' 0 2 ≠ 0#2 →
      perform (.read a) s = .next { s with answers := s.answers ++ [.readData 0#32 .eBus] }
      ∧ ∀ d, perform (.write a d) s = .next { s with answers := s.answers ++ [.written .eBus] })
    ∧ (a = 0x00000#20 → perform (.read a) s = .next { s with answers := s.answers ++ [.readData 0#32 .eBus] })
    ∧ (a ∈ [0x00004#20, 0x00014#20, 0x00018#20, 0x0001C#20, 0x00020#20, 0x00024#20] →
        ∀ d, perform (.write a d) s = .next { s with answers := s.answers ++ [.written .eBus] })
    ∧ ∀ k, k < 256 → a = BitVec.ofNat 20 (0x20000 + 4 * k) →
        ∀ d, perform (.write a d) s = .next { s with answers := s.answers ++ [.written .eBus] }

/-- `20_memory.md` R33: host access to the three buffers. The value of an unwritten element is free. -/
def Obligations.HostReadsAndWritesBuffers : Prop :=
  ∀ (b : Buffer) s k, s.cfg.Legal → k < s.cfg.n →
    (∀ v, cellAt (bufferOf b s) k = some v → perform (.read (locAddr (bufferLoc b k))) s = .next { s with
      answers := s.answers ++ [.readData (elementBits s.cfg.width v) .ok] })
    ∧ (cellAt (bufferOf b s) k = none → ∃ v, perform (.read (locAddr (bufferLoc b k))) s = .next { s with
      answers := s.answers ++ [.readData v .ok], draws := s.draws + 1 } ∧ v.toNat < 2 ^ widthBits s.cfg.width)
    ∧ (∀ d, ∃ m, perform (.write (locAddr (bufferLoc b k)) d) s = .next { withBuffer b m s with
        answers := s.answers ++ [.written .ok] }
      ∧ (∃ v, cellAt m k = some v ∧ v.toNat = d.toNat % 2 ^ widthBits s.cfg.width)
      ∧ ∀ j, j ≠ k → cellAt m j = cellAt (bufferOf b s) j)

/-- `20_memory.md` R34: host access to `RES` and `TBL`, byte `j` of the resource in lane `j mod 4`.
Where a byte of the word is unwritten the written lanes are exact and the others any value (U5); the count of draws is
the model's choice (log entry 8). -/
def Obligations.HostReadsAndWritesTheResource : Prop :=
  ∀ s k,
    (k < 128 → ∀ b0 b1 b2 b3, cellAt s.res (4 * k) = some b0 → cellAt s.res (4 * k + 1) = some b1 →
      cellAt s.res (4 * k + 2) = some b2 → cellAt s.res (4 * k + 3) = some b3 →
      perform (.read (BitVec.ofNat 20 (0x10000 + 4 * k))) s = .next { s with
        answers := s.answers ++ [.readData (b3 ++ b2 ++ b1 ++ b0) .ok] })
    ∧ (k < 128 → (∃ j, j < 4 ∧ cellAt s.res (4 * k + j) = none) →
      ∃ v : Word, perform (.read (BitVec.ofNat 20 (0x10000 + 4 * k))) s = .next { s with
          answers := s.answers ++ [.readData v .ok], draws := s.draws + 1 }
        ∧ ∀ j b, j < 4 → cellAt s.res (4 * k + j) = some b → v.extractLsb' (8 * j) 8 = b)
    ∧ (k < 128 → ∀ d, ∃ m, perform (.write (BitVec.ofNat 20 (0x10000 + 4 * k)) d) s = .next { s with
        res := m, answers := s.answers ++ [.written .ok] }
      ∧ cellAt m (4 * k) = some (d.extractLsb' 0 8) ∧ cellAt m (4 * k + 1) = some (d.extractLsb' 8 8)
      ∧ cellAt m (4 * k + 2) = some (d.extractLsb' 16 8) ∧ cellAt m (4 * k + 3) = some (d.extractLsb' 24 8)
      ∧ ∀ j, j < 4 * k ∨ 4 * k + 3 < j → cellAt m j = cellAt s.res j)
    ∧ (k < 256 → s.tblValid = true → ∀ v, cellAt s.tbl k = some v →
      perform (.read (BitVec.ofNat 20 (0x20000 + 4 * k))) s = .next { s with
        answers := s.answers ++ [.readData (v.setWidth 32) .ok] })
    ∧ (k < 256 → s.tblValid = false → ∃ v : Half, perform (.read (BitVec.ofNat 20 (0x20000 + 4 * k))) s = .next
        { s with answers := s.answers ++ [.readData (v.setWidth 32) .ok], draws := s.draws + 1 })
    ∧ (k < 256 → ∀ d, perform (.write (BitVec.ofNat 20 (0x20000 + 4 * k)) d) s = .next { s with
        answers := s.answers ++ [.written .eBus] })

/-- `20_memory.md` R36: host access to the registers. While `ENV_CFG = 0` each rate reads as some 16-bit value of its own
(`93_implementation_defined.md` U1); the count of draws is the model's choice (log entry 8). -/
def Obligations.HostReadsAndWritesRegisters : Prop :=
  ∀ s,
    (∀ d, perform (.write 0x00008#20 d) s = .next { s with arg0 := d, answers := s.answers ++ [.written .ok] }
      ∧ perform (.write 0x0000C#20 d) s = .next { s with arg1 := d, answers := s.answers ++ [.written .ok] }
      ∧ perform (.write 0x00010#20 d) s = .next { s with resDesc := d, answers := s.answers ++ [.written .ok] })
    ∧ perform (.read 0x00004#20) s = .next { s with answers := s.answers ++ [.readData (statusWord s) .ok] }
    ∧ perform (.read 0x00008#20) s = .next { s with answers := s.answers ++ [.readData s.arg0 .ok] }
    ∧ perform (.read 0x0000C#20) s = .next { s with answers := s.answers ++ [.readData s.arg1 .ok] }
    ∧ perform (.read 0x00010#20) s = .next { s with answers := s.answers ++ [.readData s.resDesc .ok] }
    ∧ perform (.read 0x00014#20) s = .next { s with answers := s.answers ++ [.readData (s.phase.setWidth 32) .ok] }
    ∧ perform (.read 0x00018#20) s = .next { s with
        answers := s.answers ++ [.readData (s.envLevel.setWidth 32) .ok] }
    ∧ (s.envCfg = true →
        perform (.read 0x0001C#20) s = .next { s with
          answers := s.answers ++ [.readData (s.attackRate.setWidth 32) .ok] }
        ∧ perform (.read 0x00020#20) s = .next { s with
          answers := s.answers ++ [.readData (s.releaseRate.setWidth 32) .ok] })
    ∧ (s.envCfg = false →
        (∃ v : Half, perform (.read 0x0001C#20) s = .next { s with
          answers := s.answers ++ [.readData (v.setWidth 32) .ok], draws := s.draws + 1 })
        ∧ ∃ v : Half, perform (.read 0x00020#20) s = .next { s with
          answers := s.answers ++ [.readData (v.setWidth 32) .ok], draws := s.draws + 1 })
    ∧ perform (.read 0x00024#20) s = .next { s with answers := s.answers ++ [.readData (paramsWord s.cfg) .ok] }
    ∧ ∀ c, perform (.write 0x00000#20 c) s =
      match issueCommand c s with
      | .next t => .next { t with answers := t.answers ++ [.written t.lastErr] }
      | .fault e => .fault e
      | .refused e => .refused e

/-- `10_state.md` R20: the fields of `STATUS` and `PARAMS`. -/
def Obligations.StatusAndParamsFields : Prop :=
  (∀ s, (statusWord s).getLsbD 0 = s.tblValid ∧ (statusWord s).getLsbD 1 = s.envCfg
      ∧ ((statusWord s).extractLsb' 2 2 = 0#2 ↔ s.envState = .off)
      ∧ ((statusWord s).extractLsb' 2 2 = 1#2 ↔ s.envState = .attack)
      ∧ ((statusWord s).extractLsb' 2 2 = 2#2 ↔ s.envState = .release)
      ∧ (statusWord s).getLsbD 4 = s.halt ∧ (statusWord s).extractLsb' 5 3 = 0#3
      ∧ (statusWord s).extractLsb' 8 4 = codeBits s.lastErr ∧ (statusWord s).extractLsb' 12 20 = 0#20)
    ∧ (codeBits .ok = 0 ∧ codeBits .eResource = 1 ∧ codeBits .eConfig = 2 ∧ codeBits .eLength = 3
      ∧ codeBits .eIllegal = 4 ∧ codeBits .eState = 5 ∧ codeBits .eHalted = 6 ∧ codeBits .eBus = 7)
    ∧ ∀ p : Params, p.Legal →
      ((paramsWord p).extractLsb' 0 15).toNat = p.n ∧ (paramsWord p).getLsbD 15 = false
      ∧ ((paramsWord p).getLsbD 16 = true ↔ p.width = .w32)
      ∧ ((paramsWord p).extractLsb' 17 3).toNat = (match p.mode with
          | .halfUp => 0
          | .floor => 1
          | .halfEven => 2
          | .halfAway => 3)
      ∧ (paramsWord p).extractLsb' 20 12 = 0#12

/-- `20_memory.md` R39: a host read changes nothing of the block. -/
def Obligations.HostReadsHaveNoSideEffect : Prop :=
  ∀ s a, ∃ v c k, perform (.read a) s = .next { s with answers := s.answers ++ [.readData v c], draws := k }

/-- `20_memory.md` R45: what the conversions at each buffer access preserve. -/
def Obligations.ElementConversionsPreserveValues : Prop :=
  ∀ (w : Width) (v : Half),
    signedElement w (sextElement w v) = v.toInt ∧ unsignedElement w (zextElement w v) = v.toNat
    ∧ (sextElement w v).toNat < 2 ^ widthBits w ∧ (zextElement w v).toNat < 2 ^ widthBits w
    ∧ (w = .w16 → sextElement w v = v.setWidth 32 ∧ zextElement w v = v.setWidth 32)
    ∧ (w = .w32 → sextElement w v = v.signExtend 32 ∧ zextElement w v = v.setWidth 32)

/-! ## Reset, writers, invariant -/

/-- `70_reset_and_hazards.md` R120: the external reset, and that it is the only way to clear `HALT`, `TBL_VALID` and
`ENV_CFG`. That the host's own record and the two rates' placeholders are what they are is the model's choice (log
entries 7, 11) and is not stated here. -/
def Obligations.ResetReplacesTheWholeState : Prop :=
  (∀ s, ∃ t, perform .reset s = .next t ∧ t.phase = 0#16 ∧ t.envState = .off ∧ t.envLevel = 0#16
      ∧ t.envCfg = false ∧ t.tblValid = false ∧ t.halt = false ∧ t.lastErr = .ok ∧ t.arg0 = 0#32 ∧ t.arg1 = 0#32
      ∧ t.resDesc = 0#32 ∧ t.cfg = s.cfg
      ∧ (∀ k, cellAt t.tbl k = none ∧ cellAt t.res k = none)
      ∧ ∀ k, cellAt t.sig k = none ∧ cellAt t.gain k = none ∧ cellAt t.out k = none)
    ∧ ∀ e s t, perform e s = .next t → e ≠ .reset →
      (s.halt = true → t.halt = true) ∧ (s.tblValid = true → t.tblValid = true) ∧ (s.envCfg = true → t.envCfg = true)

/-- `10_state.md` R26: the reset state of an instance, in the items to which the spec gives a value or none. -/
def Obligations.ResetStateHasTheSpecsValues : Prop :=
  ∀ p, let s := State.resetOf p
    s.phase = 0#16 ∧ s.envState = .off ∧ s.envLevel = 0#16 ∧ s.envCfg = false ∧ s.tblValid = false
    ∧ s.arg0 = 0#32 ∧ s.arg1 = 0#32 ∧ s.resDesc = 0#32 ∧ s.lastErr = .ok ∧ s.halt = false
    ∧ statusWord s = 0#32
    ∧ ∀ k, cellAt s.tbl k = none ∧ cellAt s.res k = none ∧ cellAt s.sig k = none ∧ cellAt s.gain k = none
        ∧ cellAt s.out k = none

/-- `10_state.md` R10: each item is written only by the commands and host accesses that the table lists for it. -/
def Obligations.EachItemHasItsWriters : Prop :=
  ∀ e s t, perform e s = .next t → e ≠ .reset →
    t.cfg = s.cfg
    ∧ (t.tbl ≠ s.tbl → Issues e .tblload) ∧ (t.tblValid ≠ s.tblValid → Issues e .tblload)
    ∧ (t.phase ≠ s.phase → Issues e .dcoinit ∨ ∃ f, Issues e (.dcorun f))
    ∧ (t.envState ≠ s.envState → ∃ b, Issues e (.envrun b)) ∧ (t.envLevel ≠ s.envLevel → ∃ b, Issues e (.envrun b))
    ∧ (t.attackRate ≠ s.attackRate → Issues e .envcfg) ∧ (t.releaseRate ≠ s.releaseRate → Issues e .envcfg)
    ∧ (t.envCfg ≠ s.envCfg → Issues e .envcfg)
    ∧ (t.sig ≠ s.sig → (∃ f, Issues e (.dcorun f)) ∨ ∃ k, WritesLoc s.cfg e (.sig k))
    ∧ (t.gain ≠ s.gain → (∃ b, Issues e (.envrun b)) ∨ ∃ k, WritesLoc s.cfg e (.gain k))
    ∧ (t.out ≠ s.out → Issues e .amprun ∨ ∃ k, WritesLoc s.cfg e (.out k))
    ∧ (t.arg0 ≠ s.arg0 → WritesLoc s.cfg e (.csr .arg0)) ∧ (t.arg1 ≠ s.arg1 → WritesLoc s.cfg e (.csr .arg1))
    ∧ (t.res ≠ s.res → ∃ k, WritesLoc s.cfg e (.res k)) ∧ (t.resDesc ≠ s.resDesc → WritesLoc s.cfg e (.csr .resDesc))
    ∧ (t.lastErr ≠ s.lastErr → ∃ c, e = commandEvent c) ∧ (t.halt ≠ s.halt → Issues e .tblload)

/-- The invariant holds at reset of every legal instance, the named one among them. -/
def Obligations.InvariantHoldsAtReset : Prop :=
  (∀ p : Params, p.Legal → BlockInv (State.resetOf p)) ∧ BlockInv State.reset

/-- `10_state.md` R25: every step keeps the invariant, from every state that has it. -/
def Obligations.EveryStepKeepsTheInvariant : Prop := ∀ s t, BlockInv s → step s = .next t → BlockInv t

/-- From every state that has the invariant, a step has a result unless it issues a `TBLLOAD` that reads an unwritten
byte or an `AMPRUN` that reads an unwritten element or a gain above `0xFFFF`; no step refuses. -/
def Obligations.OnlyUnwrittenDataOrBadGainFaults : Prop :=
  (∀ s r, step s ≠ .refused r)
    ∧ ∀ s, BlockInv s → StepSafe s
      ∨ (∃ e rest, s.inbox = e :: rest ∧ Issues e .tblload ∧ ¬ ResourceFull s)
      ∨ ∃ e rest, s.inbox = e :: rest ∧ Issues e .amprun
        ∧ ¬ (BufferFull s.cfg.n s.sig ∧ BufferFull s.cfg.n s.gain ∧ GainsInRange s)

/-- `AMPRUN` faults at the first element that has no product, whatever the later elements hold: a signal or a gain that
nothing has written (`43_amplifier.md` R85, `93_implementation_defined.md` U3), or a gain above `0xFFFF` (R89, U4). That
the first one decides, and within one element the unwritten one, is the model's order (log entries 4, 5). -/
def Obligations.AmprunFaultsAtTheFirstBadElement : Prop :=
  ∀ s n, s.halt = false → n < s.cfg.n →
    (∀ k, k < n → ∃ x g, cellAt s.sig k = some x ∧ cellAt s.gain k = some g
      ∧ unsignedElement s.cfg.width g ≤ 0xFFFF) →
    (cellAt s.sig n = none ∨ cellAt s.gain n = none → exec .amprun s = .fault .unwrittenElement)
    ∧ ∀ x g, cellAt s.sig n = some x → cellAt s.gain n = some g → 0xFFFF < unsignedElement s.cfg.width g →
      exec .amprun s = .fault .gainAboveRange
end

