-- ==== Sys2Proof/Laws/State.lean ====
section
/-!
SUPPORT. One lemma per field per update of the state, true by `rfl`, so that no later proof unfolds a record update.
-/

namespace Sys2Proof
namespace Machine

@[simp] theorem complete_cfg (c : Code) (s : State) : (complete c s).cfg = s.cfg := rfl
@[simp] theorem complete_tbl (c : Code) (s : State) : (complete c s).tbl = s.tbl := rfl
@[simp] theorem complete_tblValid (c : Code) (s : State) : (complete c s).tblValid = s.tblValid := rfl
@[simp] theorem complete_phase (c : Code) (s : State) : (complete c s).phase = s.phase := rfl
@[simp] theorem complete_envState (c : Code) (s : State) : (complete c s).envState = s.envState := rfl
@[simp] theorem complete_envLevel (c : Code) (s : State) : (complete c s).envLevel = s.envLevel := rfl
@[simp] theorem complete_attackRate (c : Code) (s : State) : (complete c s).attackRate = s.attackRate := rfl
@[simp] theorem complete_releaseRate (c : Code) (s : State) : (complete c s).releaseRate = s.releaseRate := rfl
@[simp] theorem complete_envCfg (c : Code) (s : State) : (complete c s).envCfg = s.envCfg := rfl
@[simp] theorem complete_sig (c : Code) (s : State) : (complete c s).sig = s.sig := rfl
@[simp] theorem complete_gain (c : Code) (s : State) : (complete c s).gain = s.gain := rfl
@[simp] theorem complete_out (c : Code) (s : State) : (complete c s).out = s.out := rfl
@[simp] theorem complete_arg0 (c : Code) (s : State) : (complete c s).arg0 = s.arg0 := rfl
@[simp] theorem complete_arg1 (c : Code) (s : State) : (complete c s).arg1 = s.arg1 := rfl
@[simp] theorem complete_res (c : Code) (s : State) : (complete c s).res = s.res := rfl
@[simp] theorem complete_resDesc (c : Code) (s : State) : (complete c s).resDesc = s.resDesc := rfl
@[simp] theorem complete_lastErr (c : Code) (s : State) : (complete c s).lastErr = c := rfl
@[simp] theorem complete_halt (c : Code) (s : State) : (complete c s).halt = s.halt := rfl
@[simp] theorem complete_inbox (c : Code) (s : State) : (complete c s).inbox = s.inbox := rfl
@[simp] theorem complete_answers (c : Code) (s : State) : (complete c s).answers = s.answers := rfl
@[simp] theorem complete_draws (c : Code) (s : State) : (complete c s).draws = s.draws := rfl

@[simp] theorem completeFatal_cfg (s : State) : (completeFatal s).cfg = s.cfg := rfl
@[simp] theorem completeFatal_tbl (s : State) : (completeFatal s).tbl = s.tbl := rfl
@[simp] theorem completeFatal_tblValid (s : State) : (completeFatal s).tblValid = s.tblValid := rfl
@[simp] theorem completeFatal_phase (s : State) : (completeFatal s).phase = s.phase := rfl
@[simp] theorem completeFatal_envState (s : State) : (completeFatal s).envState = s.envState := rfl
@[simp] theorem completeFatal_envLevel (s : State) : (completeFatal s).envLevel = s.envLevel := rfl
@[simp] theorem completeFatal_attackRate (s : State) : (completeFatal s).attackRate = s.attackRate := rfl
@[simp] theorem completeFatal_releaseRate (s : State) : (completeFatal s).releaseRate = s.releaseRate := rfl
@[simp] theorem completeFatal_envCfg (s : State) : (completeFatal s).envCfg = s.envCfg := rfl
@[simp] theorem completeFatal_sig (s : State) : (completeFatal s).sig = s.sig := rfl
@[simp] theorem completeFatal_gain (s : State) : (completeFatal s).gain = s.gain := rfl
@[simp] theorem completeFatal_out (s : State) : (completeFatal s).out = s.out := rfl
@[simp] theorem completeFatal_arg0 (s : State) : (completeFatal s).arg0 = s.arg0 := rfl
@[simp] theorem completeFatal_arg1 (s : State) : (completeFatal s).arg1 = s.arg1 := rfl
@[simp] theorem completeFatal_res (s : State) : (completeFatal s).res = s.res := rfl
@[simp] theorem completeFatal_resDesc (s : State) : (completeFatal s).resDesc = s.resDesc := rfl
@[simp] theorem completeFatal_lastErr (s : State) : (completeFatal s).lastErr = .eResource := rfl
@[simp] theorem completeFatal_halt (s : State) : (completeFatal s).halt = true := rfl
@[simp] theorem completeFatal_inbox (s : State) : (completeFatal s).inbox = s.inbox := rfl
@[simp] theorem completeFatal_answers (s : State) : (completeFatal s).answers = s.answers := rfl
@[simp] theorem completeFatal_draws (s : State) : (completeFatal s).draws = s.draws := rfl

@[simp] theorem answer_cfg (a : Answer) (s : State) : (answer a s).cfg = s.cfg := rfl
@[simp] theorem answer_tbl (a : Answer) (s : State) : (answer a s).tbl = s.tbl := rfl
@[simp] theorem answer_tblValid (a : Answer) (s : State) : (answer a s).tblValid = s.tblValid := rfl
@[simp] theorem answer_phase (a : Answer) (s : State) : (answer a s).phase = s.phase := rfl
@[simp] theorem answer_envState (a : Answer) (s : State) : (answer a s).envState = s.envState := rfl
@[simp] theorem answer_envLevel (a : Answer) (s : State) : (answer a s).envLevel = s.envLevel := rfl
@[simp] theorem answer_attackRate (a : Answer) (s : State) : (answer a s).attackRate = s.attackRate := rfl
@[simp] theorem answer_releaseRate (a : Answer) (s : State) : (answer a s).releaseRate = s.releaseRate := rfl
@[simp] theorem answer_envCfg (a : Answer) (s : State) : (answer a s).envCfg = s.envCfg := rfl
@[simp] theorem answer_sig (a : Answer) (s : State) : (answer a s).sig = s.sig := rfl
@[simp] theorem answer_gain (a : Answer) (s : State) : (answer a s).gain = s.gain := rfl
@[simp] theorem answer_out (a : Answer) (s : State) : (answer a s).out = s.out := rfl
@[simp] theorem answer_arg0 (a : Answer) (s : State) : (answer a s).arg0 = s.arg0 := rfl
@[simp] theorem answer_arg1 (a : Answer) (s : State) : (answer a s).arg1 = s.arg1 := rfl
@[simp] theorem answer_res (a : Answer) (s : State) : (answer a s).res = s.res := rfl
@[simp] theorem answer_resDesc (a : Answer) (s : State) : (answer a s).resDesc = s.resDesc := rfl
@[simp] theorem answer_lastErr (a : Answer) (s : State) : (answer a s).lastErr = s.lastErr := rfl
@[simp] theorem answer_halt (a : Answer) (s : State) : (answer a s).halt = s.halt := rfl
@[simp] theorem answer_inbox (a : Answer) (s : State) : (answer a s).inbox = s.inbox := rfl
@[simp] theorem answer_answers (a : Answer) (s : State) : (answer a s).answers = s.answers ++ [a] := rfl
@[simp] theorem answer_draws (a : Answer) (s : State) : (answer a s).draws = s.draws := rfl

@[simp] theorem drawn_cfg (s : State) : (drawn s).cfg = s.cfg := rfl
@[simp] theorem drawn_tbl (s : State) : (drawn s).tbl = s.tbl := rfl
@[simp] theorem drawn_tblValid (s : State) : (drawn s).tblValid = s.tblValid := rfl
@[simp] theorem drawn_phase (s : State) : (drawn s).phase = s.phase := rfl
@[simp] theorem drawn_envState (s : State) : (drawn s).envState = s.envState := rfl
@[simp] theorem drawn_envLevel (s : State) : (drawn s).envLevel = s.envLevel := rfl
@[simp] theorem drawn_attackRate (s : State) : (drawn s).attackRate = s.attackRate := rfl
@[simp] theorem drawn_releaseRate (s : State) : (drawn s).releaseRate = s.releaseRate := rfl
@[simp] theorem drawn_envCfg (s : State) : (drawn s).envCfg = s.envCfg := rfl
@[simp] theorem drawn_sig (s : State) : (drawn s).sig = s.sig := rfl
@[simp] theorem drawn_gain (s : State) : (drawn s).gain = s.gain := rfl
@[simp] theorem drawn_out (s : State) : (drawn s).out = s.out := rfl
@[simp] theorem drawn_arg0 (s : State) : (drawn s).arg0 = s.arg0 := rfl
@[simp] theorem drawn_arg1 (s : State) : (drawn s).arg1 = s.arg1 := rfl
@[simp] theorem drawn_res (s : State) : (drawn s).res = s.res := rfl
@[simp] theorem drawn_resDesc (s : State) : (drawn s).resDesc = s.resDesc := rfl
@[simp] theorem drawn_lastErr (s : State) : (drawn s).lastErr = s.lastErr := rfl
@[simp] theorem drawn_halt (s : State) : (drawn s).halt = s.halt := rfl
@[simp] theorem drawn_inbox (s : State) : (drawn s).inbox = s.inbox := rfl
@[simp] theorem drawn_answers (s : State) : (drawn s).answers = s.answers := rfl
@[simp] theorem drawn_draws (s : State) : (drawn s).draws = s.draws + 1 := rfl

@[simp] theorem applyReset_cfg (s : State) : (applyReset s).cfg = s.cfg := rfl
@[simp] theorem applyReset_tbl (s : State) : (applyReset s).tbl = (State.resetOf s.cfg).tbl := rfl
@[simp] theorem applyReset_tblValid (s : State) : (applyReset s).tblValid = (State.resetOf s.cfg).tblValid := rfl
@[simp] theorem applyReset_phase (s : State) : (applyReset s).phase = (State.resetOf s.cfg).phase := rfl
@[simp] theorem applyReset_envState (s : State) : (applyReset s).envState = (State.resetOf s.cfg).envState := rfl
@[simp] theorem applyReset_envLevel (s : State) : (applyReset s).envLevel = (State.resetOf s.cfg).envLevel := rfl
@[simp] theorem applyReset_attackRate (s : State) : (applyReset s).attackRate = (State.resetOf s.cfg).attackRate := rfl
@[simp] theorem applyReset_releaseRate (s : State) : (applyReset s).releaseRate = (State.resetOf s.cfg).releaseRate := rfl
@[simp] theorem applyReset_envCfg (s : State) : (applyReset s).envCfg = (State.resetOf s.cfg).envCfg := rfl
@[simp] theorem applyReset_sig (s : State) : (applyReset s).sig = (State.resetOf s.cfg).sig := rfl
@[simp] theorem applyReset_gain (s : State) : (applyReset s).gain = (State.resetOf s.cfg).gain := rfl
@[simp] theorem applyReset_out (s : State) : (applyReset s).out = (State.resetOf s.cfg).out := rfl
@[simp] theorem applyReset_arg0 (s : State) : (applyReset s).arg0 = (State.resetOf s.cfg).arg0 := rfl
@[simp] theorem applyReset_arg1 (s : State) : (applyReset s).arg1 = (State.resetOf s.cfg).arg1 := rfl
@[simp] theorem applyReset_res (s : State) : (applyReset s).res = (State.resetOf s.cfg).res := rfl
@[simp] theorem applyReset_resDesc (s : State) : (applyReset s).resDesc = (State.resetOf s.cfg).resDesc := rfl
@[simp] theorem applyReset_lastErr (s : State) : (applyReset s).lastErr = (State.resetOf s.cfg).lastErr := rfl
@[simp] theorem applyReset_halt (s : State) : (applyReset s).halt = (State.resetOf s.cfg).halt := rfl
@[simp] theorem applyReset_inbox (s : State) : (applyReset s).inbox = s.inbox := rfl
@[simp] theorem applyReset_answers (s : State) : (applyReset s).answers = s.answers := rfl
@[simp] theorem applyReset_draws (s : State) : (applyReset s).draws = s.draws := rfl

@[simp] theorem applyTrigger_false (s : State) : applyTrigger false s = s := rfl
@[simp] theorem applyTrigger_envState (s : State) : (applyTrigger true s).envState = .attack := rfl
@[simp] theorem applyTrigger_cfg (b : Bool) (s : State) : (applyTrigger b s).cfg = s.cfg := by cases b <;> rfl
@[simp] theorem applyTrigger_tbl (b : Bool) (s : State) : (applyTrigger b s).tbl = s.tbl := by cases b <;> rfl
@[simp] theorem applyTrigger_tblValid (b : Bool) (s : State) : (applyTrigger b s).tblValid = s.tblValid := by cases b <;> rfl
@[simp] theorem applyTrigger_phase (b : Bool) (s : State) : (applyTrigger b s).phase = s.phase := by cases b <;> rfl
@[simp] theorem applyTrigger_envLevel (b : Bool) (s : State) : (applyTrigger b s).envLevel = s.envLevel := by cases b <;> rfl
@[simp] theorem applyTrigger_attackRate (b : Bool) (s : State) : (applyTrigger b s).attackRate = s.attackRate := by cases b <;> rfl
@[simp] theorem applyTrigger_releaseRate (b : Bool) (s : State) : (applyTrigger b s).releaseRate = s.releaseRate := by cases b <;> rfl
@[simp] theorem applyTrigger_envCfg (b : Bool) (s : State) : (applyTrigger b s).envCfg = s.envCfg := by cases b <;> rfl
@[simp] theorem applyTrigger_sig (b : Bool) (s : State) : (applyTrigger b s).sig = s.sig := by cases b <;> rfl
@[simp] theorem applyTrigger_gain (b : Bool) (s : State) : (applyTrigger b s).gain = s.gain := by cases b <;> rfl
@[simp] theorem applyTrigger_out (b : Bool) (s : State) : (applyTrigger b s).out = s.out := by cases b <;> rfl
@[simp] theorem applyTrigger_arg0 (b : Bool) (s : State) : (applyTrigger b s).arg0 = s.arg0 := by cases b <;> rfl
@[simp] theorem applyTrigger_arg1 (b : Bool) (s : State) : (applyTrigger b s).arg1 = s.arg1 := by cases b <;> rfl
@[simp] theorem applyTrigger_res (b : Bool) (s : State) : (applyTrigger b s).res = s.res := by cases b <;> rfl
@[simp] theorem applyTrigger_resDesc (b : Bool) (s : State) : (applyTrigger b s).resDesc = s.resDesc := by cases b <;> rfl
@[simp] theorem applyTrigger_lastErr (b : Bool) (s : State) : (applyTrigger b s).lastErr = s.lastErr := by cases b <;> rfl
@[simp] theorem applyTrigger_halt (b : Bool) (s : State) : (applyTrigger b s).halt = s.halt := by cases b <;> rfl
@[simp] theorem applyTrigger_inbox (b : Bool) (s : State) : (applyTrigger b s).inbox = s.inbox := by cases b <;> rfl
@[simp] theorem applyTrigger_answers (b : Bool) (s : State) : (applyTrigger b s).answers = s.answers := by cases b <;> rfl
@[simp] theorem applyTrigger_draws (b : Bool) (s : State) : (applyTrigger b s).draws = s.draws := by cases b <;> rfl

end Machine
end Sys2Proof
end

