-- ==== Sys2Proof/Laws/Memory.lean ====
section
/-!
SUPPORT. The laws of a memory of elements: read after write, the canonical form is kept, and two canonical memories
that read alike are equal data.
-/

namespace Sys2Proof
namespace Machine

variable {w : Nat}

@[simp] theorem cellAt_nil (k : Nat) : cellAt ([] : Memory w) k = none := rfl

theorem cellAt_cons (c : Nat × BitVec w) (m : Memory w) (k : Nat) :
    cellAt (c :: m) k = if c.1 = k then some c.2 else cellAt m k := rfl

@[simp] theorem cellAt_setCell_same (m : Memory w) (k : Nat) (v : BitVec w) : cellAt (setCell m k v) k = some v := by
  induction m with
  | nil => simp [setCell, cellAt]
  | cons c m ih =>
    simp only [setCell]
    split
    · simp [cellAt]
    · split
      · simp [cellAt]
      · simp only [cellAt, ih, ite_eq_right_iff]; omega

theorem cellAt_setCell_ne (m : Memory w) {j k : Nat} (v : BitVec w) (h : j ≠ k) :
    cellAt (setCell m k v) j = cellAt m j := by
  induction m with
  | nil => simp [setCell, cellAt, Ne.symm h]
  | cons c m ih =>
    simp only [setCell]
    split
    · simp [cellAt, Ne.symm h]
    · split
      · next he => simp [cellAt, ← he, Ne.symm h]
      · simp [cellAt, ih]

/-- Read after write at any element. -/
theorem cellAt_setCell (m : Memory w) (j k : Nat) (v : BitVec w) :
    cellAt (setCell m k v) j = if j = k then some v else cellAt m j := by
  split
  · next h => simp [h]
  · next h => exact cellAt_setCell_ne m v h

/-- What is listed after a write was written or was listed before. -/
theorem mem_setCell {m : Memory w} {k : Nat} {v : BitVec w} {c : Nat × BitVec w} (h : c ∈ setCell m k v) :
    c = (k, v) ∨ c ∈ m := by
  induction m with
  | nil => exact .inl (by simpa [setCell] using h)
  | cons d m ih =>
    simp only [setCell] at h
    split at h
    · simpa using h
    · split at h
      · rcases List.mem_cons.1 h with h | h
        · exact .inl h
        · exact .inr (List.mem_cons_of_mem _ h)
      · rcases List.mem_cons.1 h with h | h
        · exact .inr (h ▸ List.mem_cons_self)
        · exact (ih h).imp_right (List.mem_cons_of_mem _)

/-- A write keeps the canonical form. -/
theorem setCell_wf {m : Memory w} (h : m.wf) (k : Nat) (v : BitVec w) : (setCell m k v).wf := by
  induction m with
  | nil => simp [setCell, Memory.wf]
  | cons c m ih =>
    obtain ⟨hc, hm⟩ := List.pairwise_cons.1 h
    simp only [setCell]
    split
    · next hk =>
      refine List.pairwise_cons.2 ⟨fun d hd => ?_, h⟩
      rcases List.mem_cons.1 hd with rfl | hd
      · exact hk
      · exact hk.trans (hc d hd)
    · split
      · next he => exact List.pairwise_cons.2 ⟨fun d hd => he ▸ hc d hd, hm⟩
      · refine List.pairwise_cons.2 ⟨fun d hd => ?_, ih hm⟩
        rcases mem_setCell hd with rfl | hd
        · show c.1 < k; omega
        · exact hc d hd

/-- A write inside a space keeps the memory inside it. -/
theorem setCell_below {m : Memory w} {n k : Nat} (h : m.below n) (hk : k < n) (v : BitVec w) :
    (setCell m k v).below n := by
  intro c hc
  rcases mem_setCell hc with rfl | hc
  · exact hk
  · exact h c hc

/-- A listed element is what a read of a canonical memory gives. -/
theorem cellAt_of_mem {m : Memory w} (h : m.wf) {c : Nat × BitVec w} (hc : c ∈ m) : cellAt m c.1 = some c.2 := by
  induction m with
  | nil => cases hc
  | cons d m ih =>
    obtain ⟨hd, hm⟩ := List.pairwise_cons.1 h
    rcases List.mem_cons.1 hc with rfl | hc
    · simp [cellAt]
    · have : d.1 ≠ c.1 := Nat.ne_of_lt (hd c hc)
      simp [cellAt, this, ih hm hc]

/-- What a read gives is listed. -/
theorem mem_of_cellAt {m : Memory w} {k : Nat} {v : BitVec w} (h : cellAt m k = some v) : (k, v) ∈ m := by
  induction m with
  | nil => simp at h
  | cons d m ih =>
    rw [cellAt_cons] at h
    split at h
    · next hk => cases h; subst hk; exact List.mem_cons_self
    · exact List.mem_cons_of_mem _ (ih h)

/-- Beyond its space a memory holds nothing. -/
theorem cellAt_of_below {m : Memory w} {n k : Nat} (h : m.below n) (hk : n ≤ k) : cellAt m k = none := by
  cases hv : cellAt m k with
  | none => rfl
  | some v => exact absurd (h _ (mem_of_cellAt hv)) (by simpa using hk)

/-- Equal memories are equal data. -/
theorem memory_ext {m m' : Memory w} (h : m.wf) (h' : m'.wf) (he : ∀ k, cellAt m k = cellAt m' k) : m = m' := by
  have sub : ∀ {a b : Memory w}, a.wf → (∀ k, cellAt a k = cellAt b k) → ∀ c ∈ a, c ∈ b := fun ha hab c hc =>
    mem_of_cellAt ((hab c.1) ▸ cellAt_of_mem ha hc)
  have nd : ∀ {a : Memory w}, a.wf → a.Nodup := fun ha => ha.imp (fun hlt e => by simp [e] at hlt)
  refine List.Perm.eq_of_pairwise (le := fun a b => a.1 < b.1) (fun a b _ _ h₁ h₂ => absurd h₁ (by omega)) h h' ?_
  exact (List.perm_ext_iff_of_nodup (nd h) (nd h')).2 fun c =>
    ⟨sub h he c, sub h' (fun k => (he k).symm) c⟩

/-- Writes at different elements of a memory read the same in either order. -/
theorem cellAt_setCell_comm (m : Memory w) {j k : Nat} (hjk : j ≠ k) (u v : BitVec w) (i : Nat) :
    cellAt (setCell (setCell m j u) k v) i = cellAt (setCell (setCell m k v) j u) i := by
  simp only [cellAt_setCell]
  split <;> split <;> simp_all

end Machine
end Sys2Proof
end

