-- ==== Sys2Proof/Laws/Ops.lean ====
section
/-!
SUPPORT. Once for each shared operation: everything it can do.
-/

namespace Sys2Proof
namespace Machine

@[simp] theorem andThen_next (s : State) (f : State → Result) : andThen (.next s) f = f s := rfl
@[simp] theorem andThen_fault (e : Fault) (f : State → Result) : andThen (.fault e) f = .fault e := rfl
@[simp] theorem andThen_refused (e : Refusal) (f : State → Result) : andThen (.refused e) f = .refused e := rfl

/-- Two next states are the same answer exactly if they are the same state. -/
theorem next_eq_next {s t : State} : (Host.Outcome.next s : Result) = .next t ↔ t = s := by
  rw [Host.Outcome.next.injEq, eq_comm]

/-- A sequence answers a next state exactly if both parts do. -/
theorem andThen_eq_next {r : Result} {f : State → Result} {t : State} :
    andThen r f = .next t ↔ ∃ s, r = .next s ∧ f s = .next t := by
  cases r <;> simp

/-- A sequence faults exactly if a part does. -/
theorem andThen_eq_fault {r : Result} {f : State → Result} {e : Fault} :
    andThen r f = .fault e ↔ r = .fault e ∨ ∃ s, r = .next s ∧ f s = .fault e := by
  cases r <;> simp

/-- Sequencing is associative. -/
theorem andThen_assoc (r : Result) (f g : State → Result) :
    andThen (andThen r f) g = andThen r fun s => andThen (f s) g := by
  cases r <;> rfl

@[simp] theorem withValue_some {α : Type} (v : α) (e : Fault) (f : α → Result) : withValue (some v) e f = f v := rfl
@[simp] theorem withValue_none {α : Type} (e : Fault) (f : α → Result) : withValue none e f = .fault e := rfl

/-- Going on with a value answers a next state exactly if there is a value and the rest does. -/
theorem withValue_eq_next {α : Type} {o : Option α} {e : Fault} {f : α → Result} {t : State} :
    withValue o e f = .next t ↔ ∃ v, o = some v ∧ f v = .next t := by
  cases o <;> simp

theorem unlessHalted_running {s : State} (h : s.halt = false) (r : Result) : unlessHalted s r = r := by
  simp [unlessHalted, h]

theorem unlessHalted_halted {s : State} (h : s.halt = true) (r : Result) :
    unlessHalted s r = .next (complete .eHalted s) := by
  simp [unlessHalted, h]

/-- The dispatch's first step answers a next state in one of two ways. -/
theorem unlessHalted_eq_next {s t : State} {r : Result} :
    unlessHalted s r = .next t ↔ (s.halt = true ∧ t = complete .eHalted s) ∨ (s.halt = false ∧ r = .next t) := by
  cases h : s.halt <;> simp [unlessHalted, h, next_eq_next, -Host.Outcome.next.injEq]

@[simp] theorem forSamples_zero (body : Nat → State → Result) (s : State) : forSamples body 0 s = .next s := rfl

theorem forSamples_succ (body : Nat → State → Result) (k : Nat) (s : State) :
    forSamples body (k + 1) s = andThen (forSamples body k s) (body k) := rfl

/-- A loop whose every sample answers a next state and keeps `P` runs to the end. -/
theorem forSamples_runs {body : Nat → State → Result} (P : Nat → State → Prop) {n : Nat} {s : State} (h0 : P 0 s)
    (hstep : ∀ k u, k < n → P k u → ∃ u', body k u = .next u' ∧ P (k + 1) u') :
    ∃ t, forSamples body n s = .next t ∧ P n t := by
  induction n with
  | zero => exact ⟨s, rfl, h0⟩
  | succ n ih =>
    obtain ⟨u, hu, hP⟩ := ih fun k u hk => hstep k u (by omega)
    obtain ⟨t, ht, hP'⟩ := hstep n u (by omega) hP
    exact ⟨t, by simp [forSamples_succ, hu, ht], hP'⟩

/-- What every sample keeps, a loop that ends keeps. -/
theorem forSamples_keeps {body : Nat → State → Result} (P : Nat → State → Prop) {n : Nat} {s t : State} (h0 : P 0 s)
    (hstep : ∀ k u u', k < n → P k u → body k u = .next u' → P (k + 1) u') (ht : forSamples body n s = .next t) :
    P n t := by
  induction n generalizing t with
  | zero => cases ht; exact h0
  | succ n ih =>
    rw [forSamples_succ, andThen_eq_next] at ht
    obtain ⟨u, hu, hb⟩ := ht
    exact hstep n u t (by omega) (ih (fun k u u' hk => hstep k u u' (by omega)) hu) hb

/-- A loop faults if a sample of it does: it has run to that sample. -/
theorem forSamples_fault {body : Nat → State → Result} {n k : Nat} {s u : State} {e : Fault} (hk : k < n)
    (hrun : forSamples body k s = .next u) (hf : body k u = .fault e) : forSamples body n s = .fault e := by
  induction n with
  | zero => omega
  | succ n ih =>
    rw [forSamples_succ]
    rcases Nat.lt_or_ge k n with h | h
    · rw [ih h]; rfl
    · obtain rfl : k = n := by omega
      simp [hrun, hf]

/-- A loop faults if every sample either goes on and keeps `P`, or faults, and some sample does not go on. -/
theorem forSamples_first_fault {body : Nat → State → Result} {e : Fault} (good : Nat → Prop) (P : Nat → State → Prop)
    {n : Nat} {s : State} (h0 : P 0 s)
    (hgood : ∀ k u, k < n → P k u → good k → ∃ u', body k u = .next u' ∧ P (k + 1) u')
    (hbad : ∀ k u, k < n → P k u → ¬ good k → body k u = .fault e) (hex : ∃ k, ¬ good k ∧ k < n) :
    forSamples body n s = .fault e := by
  classical
  obtain ⟨hk, hkn⟩ := Nat.find_spec hex
  have hmin : ∀ j, j < Nat.find hex → good j := fun j hj => by
    by_contra hc
    exact Nat.find_min hex hj ⟨hc, by omega⟩
  obtain ⟨u, hu, hP⟩ := forSamples_runs (body := body) (n := Nat.find hex) (s := s) P h0
    fun j v hj hv => hgood j v (by omega) hv (hmin j hj)
  exact forSamples_fault hkn hu (hbad _ u hkn hP hk)

end Machine
end Sys2Proof
end

