-- ==== Sys2Proof/Laws/Commands.lean ====
section
/-!
SUPPORT. Once for each sample of a loop and for each command: everything it can do. Later proofs cite these and do not
unfold the meanings.
-/

namespace Sys2Proof
namespace Machine

/-! ## One sample -/

/-- One entry of `TBLLOAD` answers a next state exactly if both bytes are written. -/
theorem copyEntry_eq_next {i : Nat} {s t : State} :
    copyEntry i s = .next t ↔ ∃ low high, cellAt s.res (2 * i) = some low ∧ cellAt s.res (2 * i + 1) = some high
      ∧ t = { s with tbl := setCell s.tbl i (tableEntry low high) } := by
  simp only [copyEntry, withValue_eq_next, Host.Outcome.next.injEq]
  constructor
  · rintro ⟨low, hl, high, hh, rfl⟩; exact ⟨low, high, hl, hh, rfl⟩
  · rintro ⟨low, high, hl, hh, rfl⟩; exact ⟨low, hl, high, hh, rfl⟩

/-- One sample of `DCORUN` answers a next state exactly if both table entries hold a value. -/
theorem dcoSample_eq_next {fcw : Half} {n : Nat} {s t : State} :
    dcoSample fcw n s = .next t ↔ ∃ v0 v1, cellAt s.tbl (index0 s.phase) = some v0
      ∧ cellAt s.tbl (index1 s.phase) = some v1 ∧ t = { s with
        sig := setCell s.sig n (sextElement s.cfg.width (sampleBetween s.cfg.mode v0 v1 s.phase))
        phase := s.phase + fcw } := by
  simp only [dcoSample, withValue_eq_next, Host.Outcome.next.injEq]
  constructor
  · rintro ⟨v0, h0, v1, h1, rfl⟩; exact ⟨v0, v1, h0, h1, rfl⟩
  · rintro ⟨v0, v1, h0, h1, rfl⟩; exact ⟨v0, h0, v1, h1, rfl⟩

/-- One sample of `ENVRUN` always answers a next state. -/
theorem envSample_eq (n : Nat) (s : State) :
    envSample n s = .next { s with
      envState := (envNext s.attackRate s.releaseRate s.envState s.envLevel).1
      envLevel := (envNext s.attackRate s.releaseRate s.envState s.envLevel).2
      gain := setCell s.gain n
        (zextElement s.cfg.width (envNext s.attackRate s.releaseRate s.envState s.envLevel).2) } := rfl

/-- One sample of `AMPRUN` answers a next state exactly if both elements are written and the gain is in range. -/
theorem ampSample_eq_next {n : Nat} {s t : State} :
    ampSample n s = .next t ↔ ∃ x g, cellAt s.sig n = some x ∧ cellAt s.gain n = some g
      ∧ unsignedElement s.cfg.width g ≤ Config.levelMax
      ∧ t = { s with out := setCell s.out n (ampElement s.cfg.width x g) } := by
  simp only [ampSample, withValue_eq_next]
  constructor
  · rintro ⟨x, hx, g, hg, h⟩
    split at h
    · cases h
    · next hr => cases h; exact ⟨x, g, hx, hg, by omega, rfl⟩
  · rintro ⟨x, g, hx, hg, hr, rfl⟩
    exact ⟨x, hx, g, hg, by rw [if_neg (by omega)]⟩

/-- `envNext` leaves the envelope Off only with level 0 (`10_state.md` R25 (e)). -/
theorem envNext_off {a r l : Half} {st : EnvState} (h : (envNext a r st l).1 = .off) :
    (envNext a r st l).2 = 0#16 := by
  cases st with
  | off => rfl
  | attack => simp only [envNext] at h; split at h <;> cases h
  | release =>
    simp only [envNext] at h ⊢
    split at h
    · next hneg => rw [if_pos hneg]
    · cases h

/-! ## The commands: the next state, case by case -/

/-- `TBLLOAD` answers a next state in one of four ways (`40_sinetable.md` R60). -/
theorem execTblload_eq_next {s t : State} : execTblload s = .next t ↔
    (s.halt = true ∧ t = complete .eHalted s)
    ∨ (s.halt = false ∧ s.tblValid = true ∧ t = complete .eState s)
    ∨ (s.halt = false ∧ s.tblValid = false ∧ resourceAccepted s.resDesc = false ∧ t = completeFatal s)
    ∨ (s.halt = false ∧ s.tblValid = false ∧ resourceAccepted s.resDesc = true
      ∧ ∃ u, forSamples copyEntry Config.tableLen s = .next u ∧ t = complete .ok { u with tblValid := true }) := by
  rw [execTblload, unlessHalted_eq_next]
  cases s.halt <;> cases s.tblValid <;> cases resourceAccepted s.resDesc <;>
    simp [andThen_eq_next, next_eq_next, -Host.Outcome.next.injEq]

/-- `DCOINIT` answers a next state in one of two ways (`41_oscillator.md` R70). -/
theorem execDcoinit_eq_next {s t : State} : execDcoinit s = .next t ↔
    (s.halt = true ∧ t = complete .eHalted s)
    ∨ (s.halt = false ∧ t = complete .ok { s with phase := 0#16 }) := by
  rw [execDcoinit, unlessHalted_eq_next]; simp [next_eq_next, -Host.Outcome.next.injEq]

/-- `DCORUN` answers a next state in one of three ways (`41_oscillator.md` R72). -/
theorem execDcorun_eq_next {fcw : Half} {s t : State} : execDcorun fcw s = .next t ↔
    (s.halt = true ∧ t = complete .eHalted s)
    ∨ (s.halt = false ∧ s.tblValid = false ∧ t = complete .eState s)
    ∨ (s.halt = false ∧ s.tblValid = true
      ∧ ∃ u, forSamples (dcoSample fcw) s.cfg.n s = .next u ∧ t = complete .ok u) := by
  rw [execDcorun, unlessHalted_eq_next]
  cases s.halt <;> cases s.tblValid <;> simp [andThen_eq_next, next_eq_next, -Host.Outcome.next.injEq]

/-- `ENVCFG` answers a next state in one of three ways (`42_envelope.md` R80). -/
theorem execEnvcfg_eq_next {s t : State} : execEnvcfg s = .next t ↔
    (s.halt = true ∧ t = complete .eHalted s)
    ∨ (s.halt = false ∧ (s.arg0 = 0#32 ∨ s.arg1 = 0#32) ∧ t = complete .eConfig s)
    ∨ (s.halt = false ∧ ¬ (s.arg0 = 0#32 ∨ s.arg1 = 0#32) ∧ t = complete .ok
      { s with attackRate := rateOf s.arg0, releaseRate := rateOf s.arg1, envCfg := true }) := by
  rw [execEnvcfg, unlessHalted_eq_next]
  by_cases h : s.arg0 = 0#32 ∨ s.arg1 = 0#32 <;> cases s.halt <;> simp [h, next_eq_next, -Host.Outcome.next.injEq]

/-- `ENVRUN` answers a next state in one of three ways (`42_envelope.md` R81). -/
theorem execEnvrun_eq_next {trig : Bool} {s t : State} : execEnvrun trig s = .next t ↔
    (s.halt = true ∧ t = complete .eHalted s)
    ∨ (s.halt = false ∧ s.envCfg = false ∧ t = complete .eState s)
    ∨ (s.halt = false ∧ s.envCfg = true
      ∧ ∃ u, forSamples envSample s.cfg.n (applyTrigger trig s) = .next u ∧ t = complete .ok u) := by
  rw [execEnvrun, unlessHalted_eq_next]
  cases s.halt <;> cases s.envCfg <;> simp [andThen_eq_next, next_eq_next, -Host.Outcome.next.injEq]

/-- `AMPRUN` answers a next state in one of two ways (`43_amplifier.md` R85). -/
theorem execAmprun_eq_next {s t : State} : execAmprun s = .next t ↔
    (s.halt = true ∧ t = complete .eHalted s)
    ∨ (s.halt = false ∧ ∃ u, forSamples ampSample s.cfg.n s = .next u ∧ t = complete .ok u) := by
  rw [execAmprun, unlessHalted_eq_next]; simp [andThen_eq_next, next_eq_next, -Host.Outcome.next.injEq]

/-! ## The loops: what stays -/

/-- The copy loop of `TBLLOAD` changes the table alone. -/
theorem copyLoop_frame {k : Nat} {s u : State} (h : forSamples copyEntry k s = .next u) :
    u = { s with tbl := u.tbl } := by
  refine forSamples_keeps (fun _ v => v = { s with tbl := v.tbl }) rfl (fun _ v v' _ hv hb => ?_) h
  obtain ⟨low, high, -, -, rfl⟩ := copyEntry_eq_next.1 hb
  rw [hv]

/-- The sample loop of `DCORUN` changes `SIG` and the phase alone. -/
theorem dcoLoop_frame {fcw : Half} {k : Nat} {s u : State} (h : forSamples (dcoSample fcw) k s = .next u) :
    u = { s with sig := u.sig, phase := u.phase } := by
  refine forSamples_keeps (fun _ v => v = { s with sig := v.sig, phase := v.phase }) rfl (fun _ v v' _ hv hb => ?_) h
  obtain ⟨v0, v1, -, -, rfl⟩ := dcoSample_eq_next.1 hb
  rw [hv]

/-- The sample loop of `ENVRUN` changes `GAIN`, the envelope state and the level alone. -/
theorem envLoop_frame {k : Nat} {s u : State} (h : forSamples envSample k s = .next u) :
    u = { s with gain := u.gain, envState := u.envState, envLevel := u.envLevel } := by
  refine forSamples_keeps (fun _ v => v = { s with gain := v.gain, envState := v.envState, envLevel := v.envLevel })
    rfl (fun _ v v' _ hv hb => ?_) h
  rw [envSample_eq] at hb
  cases hb
  rw [hv]

/-- The sample loop of `AMPRUN` changes `OUT` alone. -/
theorem ampLoop_frame {k : Nat} {s u : State} (h : forSamples ampSample k s = .next u) :
    u = { s with out := u.out } := by
  refine forSamples_keeps (fun _ v => v = { s with out := v.out }) rfl (fun _ v v' _ hv hb => ?_) h
  obtain ⟨x, g, -, -, -, rfl⟩ := ampSample_eq_next.1 hb
  rw [hv]

/-- The sample loop of `ENVRUN` always runs to its end. -/
theorem envLoop_runs (k : Nat) (s : State) : ∃ u, forSamples envSample k s = .next u := by
  obtain ⟨u, hu, -⟩ := forSamples_runs (body := envSample) (fun _ _ => True) (n := k) (s := s) trivial
    fun j v _ _ => ⟨_, envSample_eq j v, trivial⟩
  exact ⟨u, hu⟩

end Machine
end Sys2Proof
end

