-- ==== Sys2Proof/Laws/Decode.lean ====
section
/-!
SUPPORT. The decoder: at most one row matches a word, so the first match is the only one (`30_encoding.md` R54).
-/

namespace Sys2Proof

/-- A row fixes the opcode field of the words that match it. -/
theorem opcodeField_of_rowMatches {c : Word} {i : Instr} (h : rowMatches c i = true) :
    opcodeField c = opcodeField (rowMatch i) := by
  have h : c &&& rowMask i = rowMatch i := by simpa [rowMatches] using h
  have hm : opcodeField (rowMask i) = BitVec.allOnes 4 := by cases i <;> (simp only [rowMask]; decide)
  have : opcodeField (c &&& rowMask i) = opcodeField c &&& opcodeField (rowMask i) := by
    unfold opcodeField; ext j hj; simp
  rw [← h, this, hm, BitVec.and_allOnes]

/-- No word matches two rows. -/
theorem rows_exclusive {c : Word} {i j : Instr} (hi : i ∈ rowsOf c) (hj : j ∈ rowsOf c) (hmi : rowMatches c i = true)
    (hmj : rowMatches c j = true) : i = j := by
  have e : opcodeField (rowMatch i) = opcodeField (rowMatch j) := by
    rw [← opcodeField_of_rowMatches hmi, ← opcodeField_of_rowMatches hmj]
  simp only [rowsOf, List.mem_cons, List.not_mem_nil, or_false] at hi hj
  rcases hi with rfl | rfl | rfl | rfl | rfl | rfl <;> rcases hj with rfl | rfl | rfl | rfl | rfl | rfl <;>
    first | rfl | (exfalso; revert e; simp [rowMatch, opcodeField])

/-- A word decodes to an instruction exactly if it matches that instruction's row. -/
theorem decode_eq_ok {c : Word} {i : Instr} : decode c = .ok i ↔ i ∈ rowsOf c ∧ rowMatches c i = true := by
  constructor
  · intro h
    unfold decode at h
    split at h
    · next j hj => cases h; exact ⟨List.mem_of_find?_eq_some hj, by simpa using List.find?_some hj⟩
    · split at h <;> cases h
  · rintro ⟨hm, hr⟩
    cases hx : (rowsOf c).find? (rowMatches c) with
    | none => exact absurd hr (by simpa using List.find?_eq_none.1 hx i hm)
    | some j =>
      have : j = i := rows_exclusive (List.mem_of_find?_eq_some hx) hm (by simpa using List.find?_some hx) hr
      simp [decode, hx, this]

end Sys2Proof
end

