-- ==== Sys2Proof/Laws/HostPort.lean ====
section
/-!
SUPPORT. The host port: the memory operations keep the canonical form, the places of the fields in a bus word and in an
address, and everything an event can do.
-/

namespace Sys2Proof
namespace Machine

open Safety

/-! ## Memory operations -/

/-- A host write to `RES` keeps the canonical form (see `setCell_wf` for every other store). -/
theorem writeRes_wf {m : Memory 8} (h : m.wf) (k : Nat) (d : Word) : (writeRes m k d).wf :=
  setCell_wf (setCell_wf (setCell_wf (setCell_wf h _ _) _ _) _ _) _ _

/-- A host write to one of the 128 words of `RES` stays among its 512 bytes. -/
theorem writeRes_below {m : Memory 8} (h : m.below Config.resBytes) {k : Nat} (hk : k < 128) (d : Word) :
    (writeRes m k d).below Config.resBytes := by
  have h' : ∀ j, j < 4 → 4 * k + j < Config.resBytes := fun j hj => by simp only [Config.resBytes]; omega
  exact setCell_below (setCell_below (setCell_below (setCell_below h (h' 0 (by omega)) _) (h' 1 (by omega)) _)
    (h' 2 (by omega)) _) (h' 3 (by omega)) _

theorem elementBits_idem (w : Width) (v : Word) : elementBits w (elementBits w v) = elementBits w v := by
  cases w <;> simp [elementBits]

theorem elementBits_elementOfInt (w : Width) (i : Int) : elementBits w (elementOfInt w i) = elementOfInt w i := by
  cases w <;> simp [elementBits, elementOfInt]

theorem elementBits_toNat (w : Width) (v : Word) : (elementBits w v).toNat = v.toNat % 2 ^ widthBits w := by
  cases w <;> simp [elementBits, widthBits] <;> omega

/-- A store of `W` bits at an element of the instance keeps a buffer's invariant. -/
theorem bufferInv_setCell {p : Params} {m : Memory 32} (h : BufferInv p m) {k : Nat} (hk : k < p.n) {v : Word}
    (hv : elementBits p.width v = v) : BufferInv p (setCell m k v) :=
  ⟨setCell_wf h.wf k v, setCell_below h.below hk v, fun c hc => by
    rcases mem_setCell hc with rfl | hc
    · exact hv
    · exact h.fit c hc⟩

/-- Every memory at reset has the canonical form: it lists nothing. -/
theorem reset_memories_wf (p : Params) : (State.resetOf p).tbl.wf ∧ (State.resetOf p).res.wf
    ∧ (State.resetOf p).sig.wf ∧ (State.resetOf p).gain.wf ∧ (State.resetOf p).out.wf := by
  simp [State.resetOf, Memory.wf]

/-! ## Fields -/

/-- Where the parts of a `STATUS` word stand, for any parts. -/
theorem status_fields : ∀ (c : BitVec 4) (x : BitVec 2) (h e v : Bool),
    let w : Word := 0#20 ++ c ++ 0#3 ++ BitVec.ofBool h ++ x ++ BitVec.ofBool e ++ BitVec.ofBool v
    w.getLsbD 0 = v ∧ w.getLsbD 1 = e ∧ w.extractLsb' 2 2 = x ∧ w.getLsbD 4 = h ∧ w.extractLsb' 5 3 = 0#3
      ∧ w.extractLsb' 8 4 = c ∧ w.extractLsb' 12 20 = 0#20 := by
  decide +kernel

/-- Where the parts of a `PARAMS` word stand, for any parts. -/
theorem params_fields (m : BitVec 3) (x : BitVec 1) (n : BitVec 15) :
    let w : Word := 0#12 ++ m ++ x ++ 0#1 ++ n
    w.extractLsb' 0 15 = n ∧ w.getLsbD 15 = false ∧ w.extractLsb' 16 1 = x ∧ w.extractLsb' 17 3 = m
      ∧ w.extractLsb' 20 12 = 0#12 := by
  intro w
  have key : ∀ i, w.getLsbD i = if i < 15 then n.getLsbD i else if i < 16 then (0#1).getLsbD (i - 15)
      else if i < 17 then x.getLsbD (i - 16) else if i < 20 then m.getLsbD (i - 17)
      else (0#12).getLsbD (i - 20) := by
    intro i
    simp only [w]
    rw [BitVec.getLsbD_append, BitVec.getLsbD_append, BitVec.getLsbD_append, BitVec.getLsbD_append]
    grind
  refine ⟨?_, ?_, ?_, ?_, ?_⟩
  · ext i hi; rw [BitVec.getElem_extractLsb', key]; simp [hi]
  · rw [key]; simp
  · ext i hi; rw [BitVec.getElem_extractLsb', key]; interval_cases i; simp
  · ext i hi; rw [BitVec.getElem_extractLsb', key]; interval_cases i <;> simp
  · ext i hi; rw [BitVec.getElem_extractLsb', key]; interval_cases i <;> simp

/-- The lanes of a bus word made of four bytes. -/
theorem word_lanes (a3 a2 a1 a0 : Byte) : let w : Word := a3 ++ a2 ++ a1 ++ a0
    w.extractLsb' 0 8 = a0 ∧ w.extractLsb' 8 8 = a1 ∧ w.extractLsb' 16 8 = a2 ∧ w.extractLsb' 24 8 = a3 := by
  intro w
  have key : ∀ i, w.getLsbD i = if i < 8 then a0.getLsbD i else if i < 16 then a1.getLsbD (i - 8)
      else if i < 24 then a2.getLsbD (i - 16) else a3.getLsbD (i - 24) := by
    intro i
    simp only [w]
    rw [BitVec.getLsbD_append, BitVec.getLsbD_append, BitVec.getLsbD_append]
    grind
  refine ⟨?_, ?_, ?_, ?_⟩ <;> ext i hi <;> rw [BitVec.getElem_extractLsb', key] <;> interval_cases i <;> simp

/-- Each lane of a word of `RES` is its byte, or its lane of the free word. -/
theorem resWordValue_lane (m : Memory 8) (f : Word) (k : Nat) {j : Nat} (hj : j < 4) :
    (resWordValue m f k).extractLsb' (8 * j) 8 = resLane m f k j := by
  obtain ⟨h0, h1, h2, h3⟩ := word_lanes (resLane m f k 3) (resLane m f k 2) (resLane m f k 1) (resLane m f k 0)
  interval_cases j
  exacts [h0, h1, h2, h3]

/-- Space, offset and alignment of an address, as arithmetic. -/
theorem addr_fields (a : Addr) : (a.extractLsb' 16 4).toNat = a.toNat / 65536
    ∧ (a.extractLsb' 0 16).toNat = a.toNat % 65536 ∧ (a.extractLsb' 0 2 = 0#2 ↔ a.toNat % 4 = 0) := by
  have := a.isLt
  refine ⟨?_, ?_, ?_⟩
  · simp [BitVec.extractLsb'_toNat, Nat.shiftRight_eq_div_pow]; omega
  · simp [BitVec.extractLsb'_toNat]
  · rw [← BitVec.toNat_inj]; simp [BitVec.extractLsb'_toNat]

theorem csrOfNumber_eq_some {k : Nat} {c : Csr} : csrOfNumber k = some c ↔ k = csrNumber c := by
  constructor
  · intro h; unfold csrOfNumber at h; split at h <;> first | (cases h; rfl) | cases h
  · rintro rfl; cases c <;> rfl

/-- The location of the register at its address. -/
theorem locate_csr (p : Params) (c : Csr) : locate p (locAddr (.csr c)) = some (.csr c) := by
  cases c <;> simp [locate, locAddr, csrNumber, locOfSpace, csrOfNumber]

/-- `CMD` has one address. -/
theorem eq_zero_of_locate_cmd {p : Params} {a : Addr} (h : locate p a = some (.csr .cmd)) : a = 0#20 := by
  obtain ⟨e1, e2, e3⟩ := addr_fields a
  have ha := a.isLt
  unfold locate at h
  split at h
  · next hal =>
    rw [e3] at hal
    rw [e1, e2] at h
    unfold locOfSpace at h
    split at h <;> rename_i hs
    · obtain ⟨c, hc, hcc⟩ := Option.map_eq_some_iff.1 h
      cases hcc
      rw [csrOfNumber_eq_some] at hc
      simp only [csrNumber] at hc
      apply BitVec.eq_of_toNat_eq
      simp
      omega
    all_goals first
      | (unfold inSpace at h; split at h <;> cases h)
      | cases h
  · cases h

/-! ## Events -/

/-- A write of a command word to `CMD` issues it and answers with the code it left. -/
theorem perform_commandEvent (c : Word) (s : State) : perform (commandEvent c) s =
    andThen (issueCommand c s) fun t => .next (answer (.written t.lastErr) t) := by
  have : locate s.cfg 0x00000#20 = some (.csr .cmd) := locate_csr s.cfg .cmd
  simp [perform, commandEvent, hostWrite, this, writeLoc, writeCsr]

/-- Issuing a word runs the instruction it decodes to, or completes with a code. -/
theorem issueCommand_eq_next {c : Word} {s t : State} (h : issueCommand c s = .next t) :
    (∃ i, decode c = .ok i ∧ exec i s = .next t) ∨ ∃ k, t = complete k s := by
  unfold issueCommand at h
  split at h
  · next i hi => exact .inl ⟨i, hi, h⟩
  · right
    rcases unlessHalted_eq_next.1 h with ⟨-, rfl⟩ | ⟨-, h⟩
    · exact ⟨_, rfl⟩
    · cases h; exact ⟨_, rfl⟩

/-- Everything a host write can do. -/
theorem hostWrite_cases {a : Addr} {d : Word} {s t : State} (h : hostWrite a d s = .next t) :
    (a = 0#20 ∧ ∃ u, issueCommand d s = .next u ∧ t = answer (.written u.lastErr) u)
    ∨ t = answer (.written .eBus) s
    ∨ (locate s.cfg a = some (.csr .arg0) ∧ t = answer (.written .ok) { s with arg0 := d })
    ∨ (locate s.cfg a = some (.csr .arg1) ∧ t = answer (.written .ok) { s with arg1 := d })
    ∨ (locate s.cfg a = some (.csr .resDesc) ∧ t = answer (.written .ok) { s with resDesc := d })
    ∨ (∃ k, locate s.cfg a = some (.res k) ∧ t = answer (.written .ok) { s with res := writeRes s.res k d })
    ∨ (∃ k, locate s.cfg a = some (.sig k)
        ∧ t = answer (.written .ok) { s with sig := writeBuffer s.cfg.width s.sig k d })
    ∨ (∃ k, locate s.cfg a = some (.gain k)
        ∧ t = answer (.written .ok) { s with gain := writeBuffer s.cfg.width s.gain k d })
    ∨ ∃ k, locate s.cfg a = some (.out k)
        ∧ t = answer (.written .ok) { s with out := writeBuffer s.cfg.width s.out k d } := by
  unfold hostWrite at h
  split at h
  · next l hl =>
    cases l with
    | csr c =>
      cases c with
      | cmd =>
        obtain ⟨u, hu, h⟩ := andThen_eq_next.1 h
        cases h
        exact .inl ⟨eq_zero_of_locate_cmd hl, u, hu, rfl⟩
      | arg0 => cases h; exact .inr (.inr (.inl ⟨hl, rfl⟩))
      | arg1 => cases h; exact .inr (.inr (.inr (.inl ⟨hl, rfl⟩)))
      | resDesc => cases h; exact .inr (.inr (.inr (.inr (.inl ⟨hl, rfl⟩))))
      | _ => cases h; exact .inr (.inl rfl)
    | tbl k => cases h; exact .inr (.inl rfl)
    | res k => cases h; exact .inr (.inr (.inr (.inr (.inr (.inl ⟨k, hl, rfl⟩)))))
    | sig k => cases h; exact .inr (.inr (.inr (.inr (.inr (.inr (.inl ⟨k, hl, rfl⟩))))))
    | gain k => cases h; exact .inr (.inr (.inr (.inr (.inr (.inr (.inr (.inl ⟨k, hl, rfl⟩)))))))
    | out k => cases h; exact .inr (.inr (.inr (.inr (.inr (.inr (.inr (.inr ⟨k, hl, rfl⟩)))))))
  · cases h; exact .inr (.inl rfl)

end Machine
end Sys2Proof
end

