-- ==== Sys2Proof/Laws/PerInstr.lean ====
section
/-!
SUPPORT. Statements made per instruction: the word of each instruction lies in its row of the opcode map.
-/

namespace Sys2Proof
namespace Laws
namespace RowEncoding

/-- The word of the instruction matches its row: its opcode is the row's and its "must be 0" field is 0
(`30_encoding.md` R52, R54). -/
def Statement (i : Instr) : Prop := rowMatches (encode i) i = true

theorem tblload : Statement .tblload := by unfold Statement; decide

theorem dcoinit : Statement .dcoinit := by unfold Statement; decide

theorem dcorun (fcw : Half) : Statement (.dcorun fcw) := by
  have : (0x30000000#32 ||| fcw.setWidth 32) &&& 0xFFFF0000#32 = 0x30000000#32 := by
    ext j hj
    interval_cases j <;> simp
  simp [Statement, rowMatches, encode, rowMask, rowMatch, this]

theorem envcfg : Statement .envcfg := by unfold Statement; decide

theorem envrun (trig : Bool) : Statement (.envrun trig) := by cases trig <;> (unfold Statement; decide)

theorem amprun : Statement .amprun := by unfold Statement; decide

end RowEncoding
end Laws
end Sys2Proof
end

