-- ==== Sys2Proof/Tests/Slice0.lean ====
section
/-!
SUPPORT. Tests and witnesses. The expected results are the vectors of `95_test_vectors.md` (named in each comment) or
hand calculation from the rules; none is the model's own answer. Theorems `witness_…` show, for each statement that has
hypotheses, concrete states and operands that meet them, clause by clause at boundary values.
-/

open Sys2Proof Sys2Proof.Machine Sys2Proof.Safety

namespace Sys2Proof
namespace Tests

/-! ## Small states -/

/-- An instance after reset. -/
def fresh (n : Nat) (w : Width) : State := State.resetOf { n := n, width := w, mode := .halfUp }

/-- The entries 0, 1, 5, 6 and 255 of the test table TT (`95_test_vectors.md` section 1). -/
def someOfTT : Memory 16 := [(0, 0#16), (1, 785#16), (5, 3917#16), (6, 4695#16), (255, 0xFCEF#16)]

/-- A block with those entries as its table. -/
def toned (n : Nat) (w : Width) (p : Half) : State := { fresh n w with tbl := someOfTT, tblValid := true, phase := p }

/-- A block with a configured envelope. -/
def shaped (n : Nat) (w : Width) (a r : Half) (st : EnvState) (l : Half) : State :=
  { fresh n w with envCfg := true, attackRate := a, releaseRate := r, envState := st, envLevel := l }

/-- A block of one element with a signal and a gain. -/
def one (w : Width) (x g : Word) : State := { fresh 1 w with sig := [(0, x)], gain := [(0, g)] }

/-- The state a result gives, if any. -/
def stateOf (r : Result) : Option State :=
  match r with
  | .next s => some s
  | .fault _ => none
  | .refused _ => none

/-- The fault a result is, if any. -/
def faultOf (r : Result) : Option Fault :=
  match r with
  | .next _ => none
  | .fault e => some e
  | .refused _ => none

/-- What one event answers. -/
def answerTo (e : HostEvent) (s : State) : Option Answer := (stateOf (perform e s)).bind fun t => t.answers.getLast?

/-! ## Well-formedness: each check refuses an ill-formed term -/

def raw (a b c d e f : Nat) : RawParams := ⟨a, b, c, d, e, f, .halfUp⟩

theorem test_build_accepts : buildInstance (raw 4 4 4 16 16 16) = .built ⟨4, .w16, .halfUp⟩ := by decide
theorem test_build_refuses_signal_length : buildInstance (raw 5 4 4 16 16 16) = .rejected .eLength := by decide
theorem test_build_refuses_output_length : buildInstance (raw 4 4 5 16 16 16) = .rejected .eLength := by decide
theorem test_build_refuses_width_mismatch : buildInstance (raw 4 4 4 16 32 16) = .rejected .eLength := by decide
theorem test_build_refuses_no_samples : buildInstance (raw 0 0 0 16 16 16) = .notAnInstance := by decide
theorem test_build_refuses_too_many : buildInstance (raw 16385 16385 16385 16 16 16) = .notAnInstance := by decide
theorem test_build_refuses_width_24 : buildInstance (raw 4 4 4 24 24 24) = .notAnInstance := by decide
theorem test_script_refuses_wide_fcw : (AsmCommand.dcorun 65536).assemble = none := by decide
theorem test_script_refuses_trig_2 : (AsmCommand.envrun 2).assemble = none := by decide
theorem test_script_accepts : (AsmCommand.dcorun 65535).assemble = some (.dcorun 0xFFFF#16) := by decide

/-! ## Decoding: words of V-DEC-1 to V-DEC-14, written out from R52 and R53 -/

theorem test_decode_tblload : decode 0b0001_0000000000000000000000000000#32 = .ok .tblload := by decide
theorem test_decode_dcoinit : decode 0b0010_0000000000000000000000000000#32 = .ok .dcoinit := by decide
theorem test_decode_dcorun : decode 0b0011_000000000000_0000010101010101#32 = .ok (.dcorun 1365#16) := by decide
theorem test_decode_dcorun_all_ones : decode 0b0011_000000000000_1111111111111111#32 = .ok (.dcorun 65535#16) := by
  decide
theorem test_decode_envcfg : decode 0b0100_0000000000000000000000000000#32 = .ok .envcfg := by decide
theorem test_decode_envrun_0 : decode 0b0101_000000000000000000000000000_0#32 = .ok (.envrun false) := by decide
theorem test_decode_envrun_1 : decode 0b0101_000000000000000000000000000_1#32 = .ok (.envrun true) := by decide
theorem test_decode_amprun : decode 0b0110_0000000000000000000000000000#32 = .ok .amprun := by decide
theorem test_decode_refuses : [0x00000000#32, 0x70000000#32, 0xFFFFFFFF#32, 0x10000001#32, 0x20000100#32,
    0x40008000#32, 0x60000001#32, 0x30010000#32, 0x38000000#32, 0x50000002#32, 0x50000003#32].map
      (fun c => (decode c).toOption) = List.replicate 11 none := by decide

/-- The row of `opcode_table.json` for `DCORUN`, as the host numbers it. -/
theorem test_table_word : decodeTableWord 32 0x30000001 = some (.dcorun 1#16) := by decide

/-- A fetched word runs as the first command after reset: `DCOINIT` answers `OK`, `DCORUN` without a table `E_STATE`
(V-DCO-12). -/
theorem test_fetched_word_runs :
    (stateOf (step (State.reset.withFetchWord 32 0x20000000))).map (·.answers) = some [.written .ok]
    ∧ (stateOf (step (State.reset.withFetchWord 32 0x30000000))).map (·.answers) = some [.written .eState] := by decide

/-! ## Commands -/

/-- V-TBL-2: a missing resource halts, `STATUS = 0x00000110`. -/
theorem test_tblload_missing : (stateOf (exec .tblload (fresh 4 .w16))).map statusWord = some 0x00000110#32 := by decide

/-- V-TBL-1 for entry 129, `TBL[129] = 0xFCEF`, whose bytes are EF (low) and FC (high). -/
theorem test_tblload_entry : (stateOf (copyEntry 129 { fresh 4 .w16 with res := [(258, 0xEF#8), (259, 0xFC#8)] })).map
    (fun t => cellAt t.tbl 129) = some (some 0xFCEF#16) := by decide

/-- V-DCO-11. -/
theorem test_dcoinit : (stateOf (exec .dcoinit (toned 2 .w16 0x2AA8#16))).map (·.phase) = some 0#16 := by decide

/-- V-DCO-3: the table wraps from entry 255 to entry 0, sign-extended to 32 bits. -/
theorem test_dcorun_wraps : (stateOf (exec (.dcorun 0x40#16) (toned 4 .w32 0xFF80#16))).map (fun t => (t.sig, t.phase))
    = some ([(0, 0xFFFFFE78#32), (1, 0xFFFFFF3C#32), (2, 0#32), (3, 0xC4#32)], 0x0080#16) := by decide +kernel

/-- V-DCO-1, its first two samples. -/
theorem test_dcorun_tone : (stateOf (exec (.dcorun 1365#16) (toned 2 .w16 0#16))).map (·.sig)
    = some [(0, 0#32), (1, 4175#32)] := by decide +kernel

/-- V-CFG-1. -/
theorem test_envcfg : (stateOf (exec .envcfg { fresh 4 .w16 with arg0 := 20#32, arg1 := 10000#32 })).map
    (fun t => (t.attackRate, t.releaseRate)) = some (3276#16, 6#16) := by decide

/-- V-CFG-11: the attack rate is not updated when the release time is 0. -/
theorem test_envcfg_zero : (stateOf (exec .envcfg { shaped 4 .w16 9#16 8#16 .off 0#16 with arg0 := 10#32 })).map
    (fun t => (t.attackRate, t.releaseRate, t.lastErr)) = some (9#16, 8#16, .eConfig) := by decide

/-- V-ENV-5: a retrigger in the release resumes from the present level. -/
theorem test_envrun_retrigger : (stateOf (exec (.envrun true) (shaped 4 .w16 16383#16 8191#16 .release 40962#16))).map
    (fun t => (t.gain, t.envState, t.envLevel))
    = some ([(0, 57345#32), (1, 65535#32), (2, 57344#32), (3, 49153#32)], .release, 49153#16) := by decide +kernel

/-- V-ENV-6: level 0 is reached in Release, Off comes one sample later. -/
theorem test_envrun_idle : (stateOf (exec (.envrun false) (shaped 2 .w16 1#16 5#16 .release 10#16))).map
    (fun t => (t.envState, t.envLevel)) = some (.release, 0#16)
    ∧ (stateOf (exec (.envrun false) (shaped 3 .w16 1#16 5#16 .release 10#16))).map (·.envState) = some .off := by
  decide +kernel

/-- V-AMP-6b: the product of a negative sample is floored. -/
theorem test_amprun_floor : (stateOf (exec .amprun (one .w16 0x8300#32 3276#32))).map (·.out)
    = some [(0, 0xF9C0#32)] := by decide +kernel

/-- V-AMP-3b: the product needs 48 bits. -/
theorem test_amprun_wide : (stateOf (exec .amprun (one .w32 0x80000000#32 0xFFFF#32))).map (·.out)
    = some [(0, 0x80008000#32)] := by decide +kernel

/-- V-INT-5, V-INT-12: ties in the four modes. -/
theorem test_interp_ties : [InterpMode.halfUp, .floor, .halfEven, .halfAway].map (fun m => interp m 0 785 128)
      = [393, 392, 392, 393]
    ∧ [InterpMode.halfUp, .floor, .halfEven, .halfAway].map (fun m => interp m (-3) (-2) 128) = [-2, -3, -2, -3] := by
  decide

/-! ## Host port -/

/-- V-BUS-1, V-BUS-2: the upper half of the data is ignored; raw bits come back. -/
theorem test_bus_gain : (stateOf (runEvents [.write 0x40000#20 0x1234FFFF#32, .read 0x40000#20] (fresh 4 .w16))).map
    (·.answers) = some [.written .ok, .readData 0x0000FFFF#32 .ok] := by decide

/-- V-BUS-3 to V-BUS-7. -/
theorem test_bus_refusals : [0x30010#20, 0x30002#20, 0x00000#20, 0x00028#20, 0x60000#20].map
      (fun a => answerTo (.read a) (fresh 4 .w16)) = List.replicate 5 (some (.readData 0#32 .eBus))
    ∧ [0x00004#20, 0x00014#20, 0x20000#20].map (fun a => answerTo (.write a 5#32) (fresh 4 .w16))
      = List.replicate 3 (some (.written .eBus)) := by decide

/-- V-BUS-8. -/
theorem test_params_word : paramsWord ⟨4, .w16, .halfUp⟩ = 0x00000004#32
    ∧ paramsWord ⟨8, .w32, .floor⟩ = 0x00030008#32 := by decide

/-- Program P2: an illegal word answers `E_ILLEGAL`; after the halt it answers `E_HALTED`. -/
theorem test_illegal_then_halted :
    (stateOf (runEvents [commandEvent 0x30010000#32, commandEvent 0x10000000#32, commandEvent 0#32] (fresh 4 .w16))).map
      (fun t => (t.answers, statusWord t))
    = some ([.written .eIllegal, .written .eResource, .written .eHalted], 0x00000610#32) := by decide

/-- R58: the events of `loadtable` are 128 words, the descriptor and the command. -/
theorem test_loadtable_events : (scriptLoadtable fun _ => 0#8).length = 130
    ∧ (scriptLoadtable fun _ => 0#8).drop 128 = [.write 0x00010#20 0x80000200#32, .write 0#20 0x10000000#32] := by
  decide +kernel

/-- S10: 500 Hz at 24 kHz is the word 1365. -/
theorem test_dcofreq : scriptDcofreq 500 24000 = some [.write 0#20 0x30000555#32] := by decide +kernel

/-! ## Witnesses: states and operands that meet each statement's hypotheses -/

/-- A memory whose elements `0 .. n-1` hold `f`. -/
def filled {w : Nat} (f : Nat → BitVec w) : Nat → Memory w
  | 0 => []
  | n + 1 => setCell (filled f n) n (f n)

theorem filled_at {w : Nat} (f : Nat → BitVec w) {n k : Nat} (h : k < n) : cellAt (filled f n) k = some (f k) := by
  induction n with
  | zero => omega
  | succ n ih =>
    rw [filled, cellAt_setCell]
    split
    · next e => rw [e]
    · exact ih (by omega)

theorem filled_wf {w : Nat} (f : Nat → BitVec w) (n : Nat) : (filled f n).wf := by
  induction n with
  | zero => simp [filled, Memory.wf]
  | succ n ih => exact setCell_wf ih _ _

theorem filled_below {w : Nat} (f : Nat → BitVec w) (n : Nat) : (filled f n).below n := by
  induction n with
  | zero => simp [filled, Memory.below]
  | succ n ih => exact setCell_below (fun c hc => Nat.lt_succ_of_lt (ih c hc)) (Nat.lt_succ_self n) _

/-- A table with its entries `0 .. n-1`. -/
@[irreducible] def entries (n : Nat) : Memory 16 := filled (fun i => BitVec.ofNat 16 (7 * i)) n

/-- A staging memory with its bytes `0 .. n-1`. -/
@[irreducible] def bytes (n : Nat) : Memory 8 := filled (fun k => BitVec.ofNat 8 k) n

theorem entries_at {n i : Nat} (h : i < n) : cellAt (entries n) i = some (BitVec.ofNat 16 (7 * i)) := by
  rw [entries]; exact filled_at _ h

theorem entries_wf (n : Nat) : (entries n).wf := by rw [entries]; exact filled_wf _ n

theorem entries_below (n : Nat) : (entries n).below n := by rw [entries]; exact filled_below _ n

theorem bytes_at {n k : Nat} (h : k < n) : cellAt (bytes n) k = some (BitVec.ofNat 8 k) := by
  rw [bytes]; exact filled_at _ h

theorem bytes_end (n : Nat) : cellAt (bytes n) n = none := by
  rw [bytes]; exact cellAt_of_below (filled_below _ n) (Nat.le_refl n)

/-- Two samples, a full table, a configured envelope. -/
def ready : State :=
  { fresh 2 .w16 with tbl := entries 256, tblValid := true, envCfg := true, attackRate := 3276#16, releaseRate := 6#16 }

/-- A block with the resource staged and described, not yet loaded. -/
def staged : State := { fresh 2 .w16 with res := bytes 512, resDesc := 0x80000200#32 }

/-- A halted block. -/
def halted : State := { fresh 2 .w16 with halt := true }

/-- Two samples of 32 bits with every element of `SIG` and `GAIN` written, the last gain `g`. -/
def mixed (g : Word) : State :=
  { fresh 2 .w32 with sig := [(0, 5#32), (1, 0xFFFFFFFB#32)], gain := [(0, 0xFFFF#32), (1, g)] }

theorem ready_full : TableFull ready := fun i hi => by
  rw [show cellAt ready.tbl i = some _ from entries_at hi]; rfl

theorem staged_full : ResourceFull staged := fun k hk => by
  rw [show cellAt staged.res k = some _ from bytes_at hk]; rfl

theorem mixed_full (g : Word) : BufferFull 2 (mixed g).sig ∧ BufferFull 2 (mixed g).gain := by
  constructor <;> intro k hk <;> interval_cases k <;> rfl

theorem mixed_in_range : GainsInRange (mixed 0xFFFF#32) := by
  intro k g hk hg
  have hk : k < 2 := hk
  interval_cases k <;> (cases hg; decide)

theorem issues_command {c : Word} {i : Instr} (h : decode c = .ok i) : Issues (commandEvent c) i := ⟨c, rfl, h⟩

theorem not_issues_read (a : Addr) (i : Instr) : ¬ Issues (.read a) i := by
  rintro ⟨c, h, -⟩
  cases h

theorem witness_EncodeOfDecodeIsIdentity : decode 0x30000555#32 = .ok (.dcorun 1365#16) := by decide

theorem witness_IllegalWordsChangeOnlyLasterr :
    ((0x0FFFFFFF#32).extractLsb' 28 4).toNat = 0 ∧ 7 ≤ ((0x70000000#32).extractLsb' 28 4).toNat
    ∧ (((0x10000001#32).extractLsb' 28 4).toNat ∈ [1, 2, 4, 6] ∧ (0x10000001#32).extractLsb' 0 28 ≠ 0#28)
    ∧ (((0x68000000#32).extractLsb' 28 4).toNat ∈ [1, 2, 4, 6] ∧ (0x68000000#32).extractLsb' 0 28 ≠ 0#28)
    ∧ ((0x30010000#32).extractLsb' 28 4 = 3#4 ∧ (0x30010000#32).extractLsb' 16 12 ≠ 0#12)
    ∧ ((0x50000002#32).extractLsb' 28 4 = 5#4 ∧ (0x50000002#32).extractLsb' 1 27 ≠ 0#27)
    ∧ (decode 0x30010000#32 = .error .nonzeroMustBeZero ∧ ready.halt = false) := by decide

theorem witness_StepRunsTheIssuedCommand : ∃ s : State, s.inbox = commandEvent 0x30000555#32 :: [.reset]
    ∧ s.halt = false ∧ decode 0x30000555#32 = .ok (.dcorun 1365#16) :=
  ⟨{ ready with inbox := [commandEvent 0x30000555#32, .reset] }, rfl, rfl, by decide⟩

theorem witness_StepRunsTheIssuedCommand_illegal : ∃ s : State, s.inbox = [commandEvent 0#32] ∧ s.halt = false
    ∧ decode 0#32 = .error .unusedOpcode :=
  ⟨{ ready with inbox := [commandEvent 0#32] }, rfl, rfl, by decide⟩

theorem witness_StepRunsTheIssuedCommand_halted : ∃ s : State, s.inbox = [commandEvent 0#32] ∧ s.halt = true :=
  ⟨{ halted with inbox := [commandEvent 0#32] }, rfl, rfl⟩

theorem witness_StepPerformsTheOldestEvent : State.reset.inbox = []
    ∧ ({ ready with inbox := [.reset, .read 0#20] } : State).inbox = .reset :: [.read 0#20] := ⟨rfl, rfl⟩

theorem witness_CodesHaveTheirPriority : halted.halt = true
    ∧ (ready.halt = false ∧ decode 0x70000000#32 = .error .unusedOpcode)
    ∧ (ready.halt = false ∧ ready.tblValid = true)
    ∧ (staged.halt = false ∧ staged.tblValid = false ∧ staged.envCfg = false)
    ∧ (∃ s : State, s.halt = false ∧ s.tblValid = false ∧ s.resDesc.getLsbD 31 = true
        ∧ (s.resDesc.extractLsb' 0 31).toNat = 513)
    ∧ ((fresh 2 .w16).resDesc.getLsbD 31 = false ∧ (fresh 2 .w16).arg0 = 0#32) :=
  ⟨rfl, by decide, by decide, by decide, ⟨{ fresh 2 .w16 with resDesc := 0x80000201#32 }, by decide⟩, by decide⟩

theorem witness_FailedCommandsChangeOnlyTheCode :
    (∃ t, exec .tblload (fresh 2 .w16) = .next t ∧ t.lastErr = .eResource)
    ∧ ∃ t, exec (.dcorun 1#16) (fresh 2 .w16) = .next t ∧ t.lastErr = .eState := ⟨⟨_, rfl, rfl⟩, ⟨_, rfl, rfl⟩⟩

theorem witness_EachCommandHasItsCodes : (∃ t, exec .dcoinit ready = .next t) ∧ (∃ t, exec .amprun halted = .next t)
    ∧ (∃ t, exec (.dcorun 0xFFFF#16) (toned 2 .w16 0#16) = .next t) ∧ (∃ t, exec (.envrun true) ready = .next t)
    ∧ (∃ t, exec .envcfg ready = .next t) ∧ ∃ t, exec .tblload (fresh 2 .w16) = .next t :=
  ⟨⟨_, rfl⟩, ⟨_, rfl⟩, ⟨_, rfl⟩, ⟨_, rfl⟩, ⟨_, rfl⟩, ⟨_, rfl⟩⟩

theorem witness_OnlyResetClearsHalt : halted.halt = true
    ∧ (HostEvent.reset ∉ [commandEvent 0#32] ∧ ∃ t, runEvents [commandEvent 0#32] halted = .next t)
    ∧ ∃ t, perform .reset halted = .next t := ⟨rfl, ⟨by decide, _, rfl⟩, _, rfl⟩

theorem witness_TblloadLoadsTheWholeTable : halted.halt = true ∧ (ready.halt = false ∧ ready.tblValid = true)
    ∧ (∃ s : State, s.halt = false ∧ s.tblValid = false ∧ (s.resDesc.extractLsb' 0 31).toNat = 511)
    ∧ (staged.halt = false ∧ staged.tblValid = false ∧ staged.resDesc.getLsbD 31 = true
        ∧ (staged.resDesc.extractLsb' 0 31).toNat = 512 ∧ ResourceFull staged
        ∧ cellAt staged.res (2 * 255) = some 254#8 ∧ cellAt staged.res (2 * 255 + 1) = some 255#8) :=
  ⟨rfl, ⟨rfl, rfl⟩, ⟨{ fresh 2 .w16 with resDesc := 0x800001FF#32 }, by decide⟩, rfl, rfl, by decide, by decide,
    staged_full, bytes_at (by decide), bytes_at (by decide)⟩

theorem witness_TblloadLoadsTheWholeTable_unwritten : ∃ s : State, s.halt = false ∧ s.tblValid = false
    ∧ s.resDesc.getLsbD 31 = true ∧ (s.resDesc.extractLsb' 0 31).toNat = 512 ∧ cellAt s.res 511 = none
    ∧ cellAt s.res 510 = some 254#8 :=
  ⟨{ staged with res := bytes 511 }, rfl, rfl, by decide, by decide,
    bytes_end 511, bytes_at (by decide)⟩

theorem witness_ValidTableIsImmutable : ready.tblValid = true
    ∧ HostEvent.reset ∉ [commandEvent 0x10000000#32, HostEvent.write 0x20000#20 5#32]
    ∧ ∃ t, runEvents [commandEvent 0x10000000#32, .write 0x20000#20 5#32] ready = .next t :=
  ⟨rfl, by decide, _, rfl⟩

theorem witness_DcoinitZeroesThePhase : halted.halt = true ∧ ready.halt = false := ⟨rfl, rfl⟩

theorem witness_PhaseSplitsIntoIndexAndWeight : index0 0xFF00#16 = 255 ∧ weight 0xFF00#16 = 0 := by decide

theorem witness_DcorunFillsTheSignalBuffer : halted.halt = true
    ∧ (staged.halt = false ∧ staged.tblValid = false)
    ∧ (ready.halt = false ∧ ready.tblValid = true ∧ TableFull ready ∧ 1 < ready.cfg.n) :=
  ⟨rfl, ⟨rfl, rfl⟩, rfl, rfl, ready_full, by decide⟩

theorem witness_CommandsArePhaseContinuous : ready.halt = false ∧ ready.tblValid = true ∧ TableFull ready :=
  ⟨rfl, rfl, ready_full⟩

theorem witness_PhaseSumsTheIssuedWords : ready.halt = false ∧ ready.tblValid = true ∧ TableFull ready :=
  ⟨rfl, rfl, ready_full⟩

theorem witness_TableWrapsAtItsEnd : index0 (toned 4 .w32 0xFFFF#16).phase = 255
    ∧ cellAt (toned 4 .w32 0xFFFF#16).tbl 255 = some 0xFCEF#16
    ∧ cellAt (toned 4 .w32 0xFFFF#16).tbl 0 = some 0#16 := by decide

theorem witness_ZeroWordGivesAConstant : ready.halt = false ∧ ready.tblValid = true ∧ TableFull ready
    ∧ ready.phase = 0#16 ∧ 1 < ready.cfg.n := ⟨rfl, rfl, ready_full, rfl, by decide⟩

theorem witness_SamplesStayBetweenTheirEntries : ready.halt = false ∧ ready.tblValid = true ∧ TableFull ready :=
  ⟨rfl, rfl, ready_full⟩

theorem witness_OnlyTheOscillatorMovesThePhase : ∃ t, perform (.read 0x00014#20) ready = .next t
    ∧ HostEvent.read 0x00014#20 ≠ .reset ∧ ¬ Issues (.read 0x00014#20) .dcoinit
    ∧ ∀ f, ¬ Issues (.read 0x00014#20) (.dcorun f) :=
  ⟨_, rfl, by decide, not_issues_read _ _, fun _ => not_issues_read _ _⟩

theorem witness_InterpolatorWidthsAreExact : ∃ (v0 v1 : Int) (w : Nat), -32768 ≤ v0 ∧ v0 ≤ 32767 ∧ -32768 ≤ v1
    ∧ v1 ≤ 32767 ∧ w ≤ 255 ∧ v0 = -32768 ∧ v1 = 32767 ∧ w = 255 := ⟨-32768, 32767, 255, by decide⟩

theorem witness_RoundingModesAreTheFour : (127 : Int) % 256 ≠ 128 ∧ (127 : Int) % 256 < 128
    ∧ ((128 : Int) % 256 = 128 ∧ (128 : Int) > 0) ∧ ((-128 : Int) % 256 = 128 ∧ (-128 : Int) < 0)
    ∧ (InterpMode.halfUp ≠ .floor ∧ (129 : Int) % 256 > 128) := by decide

theorem witness_RoundingModesAgreeOffTies : ((200 - 100 : Int) * (64 : Nat)) % 256 = 0
    ∧ interpNum (-32768) 32767 255 % 256 < 128 ∧ interpNum 0 785 128 % 256 = 128 := by decide

theorem witness_InterpolationNeverOvershoots : (255 : Nat) ≤ 255 := by decide

theorem witness_EnvcfgDividesBothTimes : halted.halt = true
    ∧ (ready.halt = false ∧ ready.arg0 = 0#32)
    ∧ (∃ s : State, s.halt = false ∧ s.arg0 ≠ 0#32 ∧ s.arg1 = 0#32)
    ∧ ∃ s : State, s.halt = false ∧ s.arg0 = 0xFFFFFFFF#32 ∧ s.arg1 = 1#32 ∧ s.arg0 ≠ 0#32 ∧ s.arg1 ≠ 0#32 :=
  ⟨rfl, ⟨rfl, rfl⟩, ⟨{ ready with arg0 := 10#32 }, by decide⟩,
    ⟨{ ready with arg0 := 0xFFFFFFFF#32, arg1 := 1#32 }, by decide⟩⟩

theorem witness_RatesAreWrittenByEnvcfgAlone : (1#32 : Word) ≠ 0#32 ∧ 0x10000 ≤ (0x10000#32 : Word).toNat
    ∧ ∃ t, perform (commandEvent 0x40000000#32) { ready with arg0 := 1#32, arg1 := 1#32 } = .next t
      ∧ commandEvent 0x40000000#32 ≠ .reset ∧ t.attackRate ≠ ready.attackRate :=
  ⟨by decide, by decide, _, rfl, by decide, by decide⟩

theorem witness_EnvelopeTransitionsAreComplete : (0xFFFF#16).toNat + (1#16).toNat > 0xFFFF
    ∧ (0xFFFF#16).toNat + (0#16).toNat ≤ 0xFFFF ∧ (0#16).toNat < (1#16).toNat ∧ (5#16).toNat ≤ (5#16).toNat := by
  decide

theorem witness_EnvrunFillsTheGainBuffer : halted.halt = true ∧ (staged.halt = false ∧ staged.envCfg = false)
    ∧ (ready.halt = false ∧ ready.envCfg = true ∧ 1 < ready.cfg.n) := by decide +kernel

theorem witness_EnvelopeHasItsClosedForms : (0#16).toNat + 20 * (3276#16).toNat ≤ 65535 ∧ 1 ≤ (3276#16).toNat
    ∧ 10922 * (6#16).toNat ≤ (65535#16).toNat ∧ 1 ≤ (6#16).toNat ∧ (1 ≤ 65535 ∧ 65535 ≤ 65535) := by decide

theorem witness_IdleAndZeroRateEnvelopesStay : 1 ≤ (1#16).toNat := by decide

theorem witness_EndToEndEnvelopeExample : (20 : Nat) ≤ 20 ∧ (10922 : Nat) ≤ 10922 := by decide

theorem witness_AmprunMultipliesElementwise : halted.halt = true ∧ (mixed 0xFFFF#32).halt = false
    ∧ BufferFull 2 (mixed 0xFFFF#32).sig ∧ BufferFull 2 (mixed 0xFFFF#32).gain ∧ GainsInRange (mixed 0xFFFF#32)
    ∧ cellAt (mixed 0xFFFF#32).sig 1 = some 0xFFFFFFFB#32 ∧ cellAt (mixed 0xFFFF#32).gain 1 = some 0xFFFF#32 :=
  ⟨rfl, rfl, (mixed_full _).1, (mixed_full _).2, mixed_in_range, by decide, by decide⟩

theorem witness_AmprunMultipliesElementwise_no_signal : ∃ s : State, s.halt = false ∧ GainsInRange s ∧ 1 < s.cfg.n
    ∧ cellAt s.sig 1 = none ∧ cellAt s.gain 1 = some 0xFFFF#32 :=
  ⟨{ mixed 0xFFFF#32 with sig := [(0, 5#32)] }, rfl, mixed_in_range, by decide, by decide, by decide⟩

theorem witness_AmprunMultipliesElementwise_no_gain : ∃ s : State, s.halt = false ∧ GainsInRange s ∧ 1 < s.cfg.n
    ∧ cellAt s.sig 1 = some 0xFFFFFFFB#32 ∧ cellAt s.gain 1 = none := by
  refine ⟨{ mixed 0xFFFF#32 with gain := [(0, 0xFFFF#32)] }, rfl, ?_, by decide, by decide, by decide⟩
  intro k g hk hg
  have hk : k < 2 := hk
  interval_cases k
  · cases hg; decide
  · cases hg

theorem witness_AmplifierNeverOverflows : (0xFFFF : Nat) ≤ 0xFFFF ∧ signedElement .w32 0x80000000#32 ≤ 0
    ∧ 0 ≤ signedElement .w16 0#32 ∧ 1 ≤ signedElement .w16 1#32 := by decide

theorem witness_AmplifierGainLaws : (0 : Int) ≤ 65536 ∧ (-65535 : Int) ≤ 0 ∧ (1 : Int) ≤ 65536
    ∧ (0 : Nat) ≤ 0xFFFF ∧ (-1 : Int) < 0 := by decide

theorem witness_GainAboveRangeFaults : (∃ t, exec (.envrun true) ready = .next t ∧ t.lastErr = .ok)
    ∧ ((mixed 0x10000#32).halt = false ∧ (mixed 0x10000#32).cfg.width = .w32 ∧ BufferFull 2 (mixed 0x10000#32).sig
      ∧ BufferFull 2 (mixed 0x10000#32).gain ∧ 1 < (mixed 0x10000#32).cfg.n
      ∧ cellAt (mixed 0x10000#32).gain 1 = some 0x10000#32 ∧ 0xFFFF < (0x10000#32 : Word).toNat) :=
  ⟨⟨_, rfl, rfl⟩, rfl, rfl, (mixed_full _).1, (mixed_full _).2, by decide, by decide, by decide⟩

theorem witness_MismatchedInstancesAreRejected :
    ¬ ((raw 4 4 5 16 16 16).lenSig = (raw 4 4 5 16 16 16).lenGain
      ∧ (raw 4 4 5 16 16 16).lenGain = (raw 4 4 5 16 16 16).lenOut)
    ∧ ¬ ((raw 4 4 4 16 16 32).widthSig = (raw 4 4 4 16 16 32).widthGain
      ∧ (raw 4 4 4 16 16 32).widthGain = (raw 4 4 4 16 16 32).widthOut)
    ∧ buildInstance (raw 16384 16384 16384 32 32 32) = .built ⟨16384, .w32, .halfUp⟩
    ∧ ∃ t, exec .dcoinit ready = .next t := ⟨by decide, by decide, by decide, _, rfl⟩

theorem witness_OscillatorAndEnvelopeCommute : ready.halt = false ∧ ready.tblValid = true ∧ ready.envCfg = true :=
  ⟨rfl, rfl, rfl⟩

theorem witness_QuantumMultipliesToneByEnvelope : ready.halt = false ∧ ready.tblValid = true ∧ TableFull ready
    ∧ ready.envCfg = true ∧ 1 < ready.cfg.n := ⟨rfl, rfl, ready_full, rfl, by decide⟩

theorem witness_AddressMapIsExact : ∃ p : Params, p.Legal ∧ ValidLoc p (.out 16383)
    ∧ locate p 0x5FFFC#20 = some (.out 16383) :=
  ⟨⟨16384, .w32, .halfUp⟩, by decide, by unfold ValidLoc; decide, by decide⟩

theorem witness_RefusedAccessesChangeNothing : locate ready.cfg 0x30008#20 = none
    ∧ (0x00006#20 : Addr).extractLsb' 0 2 ≠ 0#2 ∧ 0x00024#20 ∈ [0x00004#20, 0x00014#20, 0x00018#20, 0x0001C#20,
      0x00020#20, 0x00024#20] ∧ (0x203FC#20 : Addr) = BitVec.ofNat 20 (0x20000 + 4 * 255) := by decide +kernel

theorem witness_HostReadsAndWritesBuffers : ready.cfg.Legal ∧ 1 < ready.cfg.n
    ∧ cellAt (bufferOf .sig (mixed 0#32)) 1 = some 0xFFFFFFFB#32 ∧ cellAt (bufferOf .out ready) 1 = none := by
  decide +kernel

theorem witness_HostReadsAndWritesTheResource : (127 < 128 ∧ cellAt staged.res (4 * 127) = some 252#8
      ∧ cellAt staged.res (4 * 127 + 1) = some 253#8 ∧ cellAt staged.res (4 * 127 + 2) = some 254#8
      ∧ cellAt staged.res (4 * 127 + 3) = some 255#8)
    ∧ (255 < 256 ∧ ready.tblValid = true ∧ cellAt ready.tbl 255 = some 1785#16)
    ∧ (255 < 256 ∧ staged.tblValid = false) :=
  ⟨⟨by decide, bytes_at (by decide), bytes_at (by decide), bytes_at (by decide), bytes_at (by decide)⟩,
    ⟨by decide, rfl, entries_at (by decide)⟩, by decide, rfl⟩

/-- A word of `RES` with its first byte written and its last byte not. -/
theorem witness_HostReadsAndWritesTheResource_partly : ∃ s : State, (∃ j, j < 4 ∧ cellAt s.res (4 * 127 + j) = none)
    ∧ cellAt s.res (4 * 127 + 0) = some 7#8 :=
  ⟨{ staged with res := [(508, 7#8)] }, ⟨3, by decide, by decide⟩, by decide⟩

theorem witness_HostReadsAndWritesRegisters : ready.envCfg = true ∧ staged.envCfg = false := ⟨rfl, rfl⟩

theorem witness_StatusAndParamsFields : Params.Legal ⟨16384, .w32, .halfAway⟩ := by decide

theorem witness_ResetReplacesTheWholeState : ∃ s t : State, s.halt = true ∧ s.envCfg = true
    ∧ perform (commandEvent 0#32) s = .next t ∧ commandEvent 0#32 ≠ .reset :=
  ⟨{ ready with halt := true, tblValid := false }, _, rfl, rfl, rfl, by decide⟩

theorem witness_ResetReplacesTheWholeState_valid : ready.tblValid = true
    ∧ ∃ t, perform (commandEvent 0#32) ready = .next t := ⟨rfl, _, rfl⟩

/-- Each premise of the conclusion's clauses is met too: here the phase, there a buffer and a register change. -/
theorem witness_EachItemHasItsWriters : (∃ t, perform (commandEvent 0x20000000#32) (toned 2 .w16 1#16) = .next t
      ∧ commandEvent 0x20000000#32 ≠ .reset ∧ t.phase ≠ (toned 2 .w16 1#16).phase)
    ∧ (∃ t, perform (.write 0x30004#20 9#32) ready = .next t ∧ t.sig ≠ ready.sig)
    ∧ ∃ t, perform (.write 0x00008#20 9#32) ready = .next t ∧ t.arg0 ≠ ready.arg0 :=
  ⟨⟨_, rfl, by decide, by decide⟩, ⟨_, rfl, by decide⟩, _, rfl, by decide⟩

theorem witness_InvariantHoldsAtReset : Params.Legal ⟨1, .w16, .floor⟩ ∧ Params.Legal ⟨16384, .w32, .floor⟩ := by
  decide

/-- The block that every field of the invariant says something about: a valid table and a written gain. -/
theorem ready_inv (l : List HostEvent) : BlockInv { ready with inbox := l, gain := [(1, 3276#32)] } where
  legal := by show Params.Legal ⟨2, .w16, .halfUp⟩; decide
  tblWf := entries_wf 256
  tblBelow := entries_below 256
  resWf := by show Memory.wf ([] : Memory 8); decide
  resBelow := by show Memory.below 512 ([] : Memory 8); decide
  sig := ⟨by show Memory.wf ([] : Memory 32); decide, by show Memory.below 2 ([] : Memory 32); decide,
    by show ElementsFit .w16 ([] : Memory 32); decide⟩
  gain := ⟨by show Memory.wf ([(1, 3276#32)] : Memory 32); decide,
    by show Memory.below 2 ([(1, 3276#32)] : Memory 32); decide,
    by show ElementsFit .w16 ([(1, 3276#32)] : Memory 32); decide⟩
  out := ⟨by show Memory.wf ([] : Memory 32); decide, by show Memory.below 2 ([] : Memory 32); decide,
    by show ElementsFit .w16 ([] : Memory 32); decide⟩
  offLevel := fun _ => rfl
  validRuns := fun _ => rfl
  validFull := fun _ => ready_full

theorem witness_EveryStepKeepsTheInvariant : ∃ s t : State, BlockInv s ∧ step s = .next t ∧ s.inbox ≠ [] :=
  ⟨_, _, ready_inv [commandEvent 0x50000001#32], rfl, by decide⟩

theorem witness_OnlyUnwrittenDataOrBadGainFaults : ∃ s : State, BlockInv s ∧ s.inbox = [commandEvent 0x60000000#32]
    ∧ Issues (commandEvent 0x60000000#32) .amprun :=
  ⟨_, ready_inv [commandEvent 0x60000000#32], rfl, issues_command (by decide)⟩

/-- Element 0 has a product and element 1 a gain above the range, in a 32-bit block. -/
theorem witness_AmprunFaultsAtTheFirstBadElement : (mixed 0x10000#32).halt = false ∧ 1 < (mixed 0x10000#32).cfg.n
    ∧ (∀ k, k < 1 → ∃ x g, cellAt (mixed 0x10000#32).sig k = some x ∧ cellAt (mixed 0x10000#32).gain k = some g
      ∧ unsignedElement .w32 g ≤ 0xFFFF)
    ∧ cellAt (mixed 0x10000#32).sig 1 = some 0xFFFFFFFB#32 ∧ cellAt (mixed 0x10000#32).gain 1 = some 0x10000#32
    ∧ 0xFFFF < unsignedElement .w32 0x10000#32 := by
  refine ⟨rfl, by decide, fun k hk => ?_, by decide, by decide, by decide⟩
  interval_cases k
  exact ⟨_, _, rfl, rfl, by decide⟩

/-- Element 0 is unwritten although element 1 has a gain above the range: the first one decides. -/
theorem witness_AmprunFaultsAtTheFirstBadElement_both : ∃ s : State, s.halt = false ∧ 0 < s.cfg.n
    ∧ cellAt s.sig 0 = none ∧ cellAt s.gain 1 = some 0x10000#32 ∧ faultOf (exec .amprun s) = some .unwrittenElement :=
  ⟨{ mixed 0x10000#32 with sig := [(1, 5#32)] }, rfl, by decide, by decide, by decide, by decide +kernel⟩

end Tests
end Sys2Proof
end

section
/-!
The host port, `20_memory.md` R33 to R36: which address reaches which location, what a read or a write of a location
answers and changes, and what is refused.
-/

namespace Sys2Proof

open Machine Safety

/-! ## From an address to its location -/

namespace Machine

/-- Word `k` of a space stands at byte offset `4 k` of the space's 64 KiB (`20_memory.md` R31). -/
theorem locate_ofNat (p : Params) {space k : Nat} (hs : space < 16) (hk : k < 16384) :
    locate p (BitVec.ofNat 20 (space * 0x10000 + 4 * k)) = locOfSpace p space k := by
  obtain ⟨hspace, hoffset, haligned⟩ := addr_fields (BitVec.ofNat 20 (space * 0x10000 + 4 * k))
  have hnat : (BitVec.ofNat 20 (space * 0x10000 + 4 * k)).toNat = space * 0x10000 + 4 * k := by
    rw [BitVec.toNat_ofNat]; omega
  rw [hnat] at hspace hoffset haligned
  rw [locate, if_pos (haligned.2 (by omega)), hspace, hoffset]
  congr 1 <;> omega

theorem locate_res (p : Params) {k : Nat} (hk : k < 128) : locate p (locAddr (.res k)) = some (.res k) :=
  (locate_ofNat p (space := 1) (by decide) (by omega)).trans (if_pos hk)

theorem locate_tbl (p : Params) {k : Nat} (hk : k < 256) : locate p (locAddr (.tbl k)) = some (.tbl k) :=
  (locate_ofNat p (space := 2) (by decide) (by omega)).trans (if_pos hk)

theorem locate_bufferLoc {p : Params} (hp : p.Legal) (b : Buffer) {k : Nat} (hk : k < p.n) :
    locate p (locAddr (bufferLoc b k)) = some (bufferLoc b k) := by
  have hmax : k < 16384 := hk.trans_le hp.2
  cases b with
  | sig => exact (locate_ofNat p (space := 3) (by decide) hmax).trans (if_pos hk)
  | gain => exact (locate_ofNat p (space := 4) (by decide) hmax).trans (if_pos hk)
  | out => exact (locate_ofNat p (space := 5) (by decide) hmax).trans (if_pos hk)

/-- A misaligned address reaches no location (`20_memory.md` R38). -/
theorem locate_misaligned (p : Params) {a : Addr} (h : a.extractLsb' 0 2 ≠ 0#2) : locate p a = none := if_neg h

/-! ## Reads and writes by location -/

/-- A read of a location that gives a value answers it with `OK`. -/
theorem perform_read {s : State} {a : Addr} {l : Loc} {r : Word × State} (hl : locate s.cfg a = some l)
    (hr : readLoc l s = some r) : perform (.read a) s = .next (answer (.readData r.1 .ok) r.2) := by
  simp [perform, hostRead, hl, hr]

/-- A read of no location is refused. -/
theorem perform_read_unmapped {s : State} {a : Addr} (hl : locate s.cfg a = none) :
    perform (.read a) s = .next (answer (.readData 0#32 .eBus) s) := by
  simp [perform, hostRead, hl]

/-- A read of a location that cannot be read is refused. -/
theorem perform_read_unreadable {s : State} {a : Addr} {l : Loc} (hl : locate s.cfg a = some l)
    (hr : readLoc l s = none) : perform (.read a) s = .next (answer (.readData 0#32 .eBus) s) := by
  simp [perform, hostRead, hl, hr]

/-- A write to a mapped address is the write of its location. -/
theorem perform_write {s : State} {a : Addr} {l : Loc} (hl : locate s.cfg a = some l) (d : Word) :
    perform (.write a d) s = writeLoc l d s := by
  simp [perform, hostWrite, hl]

/-- A write to no location is refused. -/
theorem perform_write_unmapped {s : State} {a : Addr} (hl : locate s.cfg a = none) (d : Word) :
    perform (.write a d) s = refuseWrite s := by
  simp [perform, hostWrite, hl]

/-! ## Buffers -/

theorem readLoc_bufferLoc (b : Buffer) (k : Nat) (s : State) :
    readLoc (bufferLoc b k) s = some (readBuffer (bufferLoc b k) (bufferOf b s) k s) := by
  cases b <;> rfl

theorem writeLoc_bufferLoc (b : Buffer) (k : Nat) (d : Word) (s : State) : writeLoc (bufferLoc b k) d s
    = acceptWrite (withBuffer b (writeBuffer s.cfg.width (bufferOf b s) k d) s) := by
  cases b <;> rfl

@[simp] theorem withBuffer_answers (b : Buffer) (m : Memory 32) (s : State) :
    (withBuffer b m s).answers = s.answers := by
  cases b <;> rfl

theorem readBuffer_written {m : Memory 32} {k : Nat} {v : Word} (h : cellAt m k = some v) (l : Loc) (s : State) :
    readBuffer l m k s = (elementBits s.cfg.width v, s) := by
  simp [readBuffer, h, readHeld]

theorem readBuffer_unwritten {m : Memory 32} {k : Nat} (h : cellAt m k = none) (l : Loc) (s : State) :
    readBuffer l m k s = (elementBits s.cfg.width (freeAt l s), drawn s) := by
  simp [readBuffer, h]

/-- A bus word has the `W` bits of an element at most. -/
theorem elementBits_lt (w : Width) (v : Word) : (elementBits w v).toNat < 2 ^ widthBits w := by
  rw [elementBits_toNat]
  exact Nat.mod_lt _ (Nat.two_pow_pos _)

/-! ## The staging memory and the table -/

/-- After a write of word `k`, byte lane `j` of the data is byte `4 k + j`. -/
theorem cellAt_writeRes_lane (m : Memory 8) (k : Nat) (d : Word) {j : Nat} (hj : j < 4) :
    cellAt (writeRes m k d) (4 * k + j) = some (d.extractLsb' (8 * j) 8) := by
  interval_cases j <;> simp [writeRes, cellAt_setCell]

/-- A write of word `k` changes no byte outside it. -/
theorem cellAt_writeRes_other (m : Memory 8) (d : Word) {k j : Nat} (hj : j < 4 * k ∨ 4 * k + 3 < j) :
    cellAt (writeRes m k d) j = cellAt m j := by
  unfold writeRes
  iterate 4 rw [cellAt_setCell_ne _ _ (by omega)]

theorem resLane_written {m : Memory 8} {k j : Nat} {b : Byte} (h : cellAt m (4 * k + j) = some b) (f : Word) :
    resLane m f k j = b := by
  simp [resLane, h]

/-- One unwritten byte is enough for a word not to be written. -/
theorem resWordWritten_eq_false {m : Memory 8} {k j : Nat} (hj : j < 4) (h : cellAt m (4 * k + j) = none) :
    resWordWritten m k = false := by
  interval_cases j <;> simp_all [resWordWritten]

/-- A read of four written bytes gives them, byte `4 k` in the lowest lane, and draws nothing. -/
theorem readRes_written {s : State} {k : Nat} {b0 b1 b2 b3 : Byte} (h0 : cellAt s.res (4 * k) = some b0)
    (h1 : cellAt s.res (4 * k + 1) = some b1) (h2 : cellAt s.res (4 * k + 2) = some b2)
    (h3 : cellAt s.res (4 * k + 3) = some b3) : readRes k s = (b3 ++ b2 ++ b1 ++ b0, s) := by
  have hw : resWordWritten s.res k = true := by simp [resWordWritten, h0, h1, h2, h3]
  simp [readRes, hw, resWordValue, resLane, h0, h1, h2, h3]

/-- A read of a word with an unwritten byte draws a free value. -/
theorem readRes_partly {s : State} {k j : Nat} (hj : j < 4) (h : cellAt s.res (4 * k + j) = none) :
    readRes k s = (resWordValue s.res (freeAt (.res k) s) k, drawn s) := by
  simp [readRes, resWordWritten_eq_false hj h]

theorem readTable_valid {s : State} (hv : s.tblValid = true) {k : Nat} {v : Half} (h : cellAt s.tbl k = some v) :
    readTable k s = (v.setWidth 32, s) := by
  simp [readTable, hv, h, readHeld]

theorem readTable_notValid {s : State} (hv : s.tblValid = false) (k : Nat) :
    readTable k s = readFreeHalf (.tbl k) s := by
  simp [readTable, hv]

/-! ## Registers -/

theorem perform_read_csr {s : State} {c : Csr} {r : Word × State} (hr : readCsr c s = some r) :
    perform (.read (locAddr (.csr c))) s = .next (answer (.readData r.1 .ok) r.2) :=
  perform_read (locate_csr s.cfg c) hr

theorem perform_write_csr (s : State) (c : Csr) (d : Word) :
    perform (.write (locAddr (.csr c)) d) s = writeCsr c d s :=
  perform_write (locate_csr s.cfg c) d

theorem readRate_configured {s : State} (h : s.envCfg = true) (c : Csr) (r : Half) :
    readRate c r s = (r.setWidth 32, s) := by
  simp [readRate, h, readHeld]

theorem readRate_unconfigured {s : State} (h : s.envCfg = false) (c : Csr) (r : Half) :
    readRate c r s = readFreeHalf (.csr c) s := by
  simp [readRate, h]

/-- The registers that the host may only read (`10_state.md` R20). -/
def readOnlyCsrs : List Csr := [.status, .phase, .envLevel, .attackRate, .releaseRate, .params]

theorem writeCsr_readOnly {c : Csr} (h : c ∈ readOnlyCsrs) (d : Word) (s : State) :
    writeCsr c d s = refuseWrite s := by
  cases c with
  | cmd | arg0 | arg1 | resDesc => exact absurd h (by decide)
  | status | phase | envLevel | attackRate | releaseRate | params => rfl

end Machine

/-! ## The obligations -/

/-- Settles O42: an address with no location, the one register that cannot be read, and the locations that cannot be
written. -/
theorem refusedAccessesChangeNothing : Obligations.RefusedAccessesChangeNothing := by
  intro s a
  refine ⟨fun h => ?_, fun ha => ?_, fun ha d => ?_, fun k hk ha d => ?_⟩
  · have hl : locate s.cfg a = none := h.elim id (locate_misaligned s.cfg)
    exact ⟨perform_read_unmapped hl, perform_write_unmapped hl⟩
  · subst ha
    exact perform_read_unreadable (locate_csr s.cfg .cmd) rfl
  · have hro : a ∈ readOnlyCsrs.map fun c => locAddr (.csr c) := ha
    obtain ⟨c, hc, rfl⟩ := List.mem_map.1 hro
    exact (perform_write_csr s c d).trans (writeCsr_readOnly hc d s)
  · subst ha
    exact perform_write (locate_tbl s.cfg hk) d

/-- Settles O43, for the three buffers at once through `bufferLoc`. -/
theorem hostReadsAndWritesBuffers : Obligations.HostReadsAndWritesBuffers := by
  intro b s k hp hk
  have hl := locate_bufferLoc hp b hk
  have hread := perform_read hl (readLoc_bufferLoc b k s)
  refine ⟨fun v hv => ?_, fun hnone => ?_, fun d => ?_⟩
  · rw [hread, readBuffer_written hv]
    rfl
  · refine ⟨elementBits s.cfg.width (freeAt (bufferLoc b k) s), ?_, elementBits_lt _ _⟩
    rw [hread, readBuffer_unwritten hnone]
    rfl
  · refine ⟨writeBuffer s.cfg.width (bufferOf b s) k d, ?_,
      ⟨_, cellAt_setCell_same _ _ _, elementBits_toNat _ _⟩, fun j hj => cellAt_setCell_ne _ _ hj⟩
    rw [perform_write hl, writeLoc_bufferLoc, acceptWrite, answer, withBuffer_answers]

/-- Settles O44: lane by lane for `RES`, by `TBL_VALID` for the table. -/
theorem hostReadsAndWritesTheResource : Obligations.HostReadsAndWritesTheResource := by
  intro s k
  have hres (hk : k < 128) := perform_read (locate_res s.cfg hk) rfl
  have htbl (hk : k < 256) := perform_read (locate_tbl s.cfg hk) rfl
  refine ⟨fun hk b0 b1 b2 b3 h0 h1 h2 h3 => ?_, fun hk ⟨j, hj, hnone⟩ => ?_, fun hk d => ?_, fun hk hv v h => ?_,
    fun hk hv => ?_, fun hk d => perform_write (locate_tbl s.cfg hk) d⟩
  · refine (hres hk).trans ?_
    rw [readRes_written h0 h1 h2 h3]
    rfl
  · refine ⟨resWordValue s.res (freeAt (.res k) s) k, (hres hk).trans ?_, fun i b hi hb => ?_⟩
    · rw [readRes_partly hj hnone]
      rfl
    · rw [resWordValue_lane _ _ _ hi, resLane_written hb]
  · have lane {j : Nat} (hj : j < 4) := cellAt_writeRes_lane s.res k d hj
    exact ⟨writeRes s.res k d, perform_write (locate_res s.cfg hk) d, lane (j := 0) (by decide),
      lane (j := 1) (by decide), lane (j := 2) (by decide), lane (j := 3) (by decide),
      fun j hj => cellAt_writeRes_other _ _ hj⟩
  · refine (htbl hk).trans ?_
    rw [readTable_valid hv h]
    rfl
  · refine ⟨(freeAt (.tbl k) s).setWidth 16, (htbl hk).trans ?_⟩
    rw [readTable_notValid hv]
    rfl

/-- Settles O45, register by register; the two rates by `ENV_CFG`. -/
theorem hostReadsAndWritesRegisters : Obligations.HostReadsAndWritesRegisters := by
  intro s
  have hattack := perform_read_csr (s := s) (c := .attackRate) rfl
  have hrelease := perform_read_csr (s := s) (c := .releaseRate) rfl
  refine ⟨fun d => ⟨perform_write_csr s .arg0 d, perform_write_csr s .arg1 d, perform_write_csr s .resDesc d⟩,
    perform_read_csr (c := .status) rfl, perform_read_csr (c := .arg0) rfl, perform_read_csr (c := .arg1) rfl,
    perform_read_csr (c := .resDesc) rfl, perform_read_csr (c := .phase) rfl, perform_read_csr (c := .envLevel) rfl,
    fun h => ?_, fun h => ?_, perform_read_csr (c := .params) rfl, fun c => ?_⟩
  · rw [readRate_configured h] at hattack hrelease
    exact ⟨hattack, hrelease⟩
  · rw [readRate_unconfigured h] at hattack hrelease
    exact ⟨⟨_, hattack⟩, _, hrelease⟩
  · refine (perform_commandEvent c s).trans ?_
    cases issueCommand c s <;> rfl

end Sys2Proof
end

section
/-!
The encoding and the issue of a command, `30_encoding.md` R51, R54, R55: which words each row of the opcode map matches,
how many are legal, which are rejected, and what a step does with the word that the host writes to `CMD`.
-/

namespace Sys2Proof

open Machine

/-! ## The rows of the opcode map -/

/-- The decoder's row test as `30_encoding.md` R54 writes it: `c & mask = match`. -/
theorem decode_eq_ok_iff_row {c : Word} {i : Instr} :
    decode c = .ok i ↔ i ∈ rowsOf c ∧ c &&& rowMask i = rowMatch i := by
  rw [decode_eq_ok, rowMatches, beq_iff_eq]

theorem dcorun_mem_rowsOf {c : Word} {f : Half} : .dcorun f ∈ rowsOf c ↔ f = fcwField c := by
  simp [rowsOf]

theorem envrun_mem_rowsOf {c : Word} {b : Bool} : .envrun b ∈ rowsOf c ↔ b = trigField c := by
  simp [rowsOf]

/-! ## The words of the instructions -/

/-- The word of an instruction carries its operands in their fields. -/
theorem mem_rowsOf_encode (i : Instr) : i ∈ rowsOf (encode i) := by
  cases i with
  | tblload | dcoinit | envcfg | amprun => simp [rowsOf]
  | dcorun f =>
    rw [dcorun_mem_rowsOf, fcwField, encode]
    ext j hj
    interval_cases j <;> simp
  | envrun b => cases b <;> decide

theorem rowMatches_encode (i : Instr) : rowMatches (encode i) i = true := by
  cases i with
  | tblload => exact Laws.RowEncoding.tblload
  | dcoinit => exact Laws.RowEncoding.dcoinit
  | dcorun f => exact Laws.RowEncoding.dcorun f
  | envcfg => exact Laws.RowEncoding.envcfg
  | envrun b => exact Laws.RowEncoding.envrun b
  | amprun => exact Laws.RowEncoding.amprun

theorem decode_encode (i : Instr) : decode (encode i) = .ok i :=
  decode_eq_ok.2 ⟨mem_rowsOf_encode i, rowMatches_encode i⟩

theorem encode_injective : Function.Injective encode := fun i j h => by
  have hij := congrArg decode h
  rw [decode_encode, decode_encode] at hij
  exact Except.ok.inj hij

/-- The operand field of a legal word is what the row's mask leaves free. -/
theorem encode_eq_rowMatch_or {c : Word} {i : Instr} (h : i ∈ rowsOf c) :
    encode i = rowMatch i ||| (c &&& ~~~rowMask i) := by
  cases i with
  | tblload | dcoinit | envcfg | amprun => simp [encode, rowMatch, rowMask]
  | dcorun f =>
    have hfield : (fcwField c).setWidth 32 = c &&& ~~~0xFFFF0000#32 := by
      ext j hj
      interval_cases j <;> simp [fcwField]
    rw [dcorun_mem_rowsOf.1 h, encode, hfield, rowMatch, rowMask]
  | envrun b =>
    have hfield : (BitVec.ofBool (trigField c)).setWidth 32 = c &&& ~~~0xFFFFFFFE#32 := by
      ext j hj
      interval_cases j <;> simp [trigField]
    rw [envrun_mem_rowsOf.1 h, encode, hfield, rowMatch, rowMask]

theorem encode_of_decode {c : Word} {i : Instr} (h : decode c = .ok i) : encode i = c := by
  obtain ⟨hmem, hrow⟩ := decode_eq_ok_iff_row.1 h
  calc encode i = rowMatch i ||| (c &&& ~~~rowMask i) := encode_eq_rowMatch_or hmem
    _ = c &&& (rowMask i ||| ~~~rowMask i) := by rw [← hrow, BitVec.and_or_distrib_left]
    _ = c := by rw [BitVec.or_not_self, BitVec.and_allOnes]

theorem decodable_eq_range_encode : {c : Word | ∃ i, decode c = .ok i} = Set.range encode :=
  Set.ext fun _ => exists_congr fun i => ⟨encode_of_decode, fun h => h ▸ decode_encode i⟩

/-! ## How many words are legal -/

/-- An instruction as the operands of its format: the four commands of format Z, `FCW`, or `TRIG`
(`30_encoding.md` R53). -/
def instrEquiv : Instr ≃ Fin 4 ⊕ Half ⊕ Bool where
  toFun
    | .tblload => .inl 0
    | .dcoinit => .inl 1
    | .envcfg => .inl 2
    | .amprun => .inl 3
    | .dcorun f => .inr (.inl f)
    | .envrun b => .inr (.inr b)
  invFun
    | .inl 0 => .tblload
    | .inl 1 => .dcoinit
    | .inl 2 => .envcfg
    | .inl 3 => .amprun
    | .inr (.inl f) => .dcorun f
    | .inr (.inr b) => .envrun b
  left_inv i := by cases i <;> rfl
  right_inv
    | .inl k => by fin_cases k <;> rfl
    | .inr (.inl _) => rfl
    | .inr (.inr _) => rfl

theorem card_instr : Nat.card Instr = 65542 := by
  have hhalf : Nat.card Half = 65536 := by
    rw [Nat.card_eq_fintype_card, ← FinEnum.card_eq_fintypeCard, FinEnum.card_bitVec]
    rfl
  rw [Nat.card_congr instrEquiv, Nat.card_sum, Nat.card_sum, hhalf]
  simp

/-! ## The rejected words -/

/-- A word is rejected exactly if it is no command. -/
theorem rejected_iff {c : Word} : (∃ r, decode c = .error r) ↔ ∀ i, decode c ≠ .ok i := by
  cases decode c <;> simp

/-- The opcode of a command is its row's. -/
theorem opcode_of_decode {c : Word} {i : Instr} (h : decode c = .ok i) :
    c.extractLsb' 28 4 = (rowMatch i).extractLsb' 28 4 :=
  opcodeField_of_rowMatches (decode_eq_ok.1 h).2

/-- A field that the row's mask covers and in which the row's match is 0 is a "must be 0" field. -/
theorem mustBeZero_of_decode {c : Word} {i : Instr} (h : decode c = .ok i) {lo n : Nat}
    (hmask : (rowMask i).extractLsb' lo n = BitVec.allOnes n) (hmatch : (rowMatch i).extractLsb' lo n = 0#n) :
    c.extractLsb' lo n = 0#n := by
  rw [← hmatch, ← (decode_eq_ok_iff_row.1 h).2, BitVec.extractLsb'_and, hmask, BitVec.and_allOnes]

/-- The opcodes of the map are 1 to 6 (`30_encoding.md` R54). -/
theorem opcode_range_of_decode {c : Word} {i : Instr} (h : decode c = .ok i) :
    1 ≤ (c.extractLsb' 28 4).toNat ∧ (c.extractLsb' 28 4).toNat ≤ 6 := by
  rw [opcode_of_decode h]
  cases i <;> simp [rowMatch]

/-- Format Z (`30_encoding.md` R52): opcodes 1, 2, 4 and 6 stand alone. -/
theorem formatZ_rest_zero {c : Word} {i : Instr} (h : decode c = .ok i)
    (hop : (c.extractLsb' 28 4).toNat ∈ [1, 2, 4, 6]) : c.extractLsb' 0 28 = 0#28 := by
  cases i with
  | tblload | dcoinit | envcfg | amprun => exact mustBeZero_of_decode h (by decide) (by decide)
  | dcorun f => simp [opcode_of_decode h, rowMatch] at hop
  | envrun b => simp [opcode_of_decode h, rowMatch] at hop

/-- Format F (`30_encoding.md` R52): opcode 3 has bits [27:16] zero. -/
theorem formatF_rest_zero {c : Word} {i : Instr} (h : decode c = .ok i) (hop : c.extractLsb' 28 4 = 3#4) :
    c.extractLsb' 16 12 = 0#12 := by
  cases i with
  | dcorun f => exact mustBeZero_of_decode h (by rw [rowMask]; decide) (by rw [rowMatch]; decide)
  | tblload | dcoinit | envcfg | envrun b | amprun => simp [opcode_of_decode h, rowMatch] at hop

/-- Format T (`30_encoding.md` R52): opcode 5 has bits [27:1] zero. -/
theorem formatT_rest_zero {c : Word} {i : Instr} (h : decode c = .ok i) (hop : c.extractLsb' 28 4 = 5#4) :
    c.extractLsb' 1 27 = 0#27 := by
  cases i with
  | envrun b => exact mustBeZero_of_decode h (by rw [rowMask]; decide) (by rw [rowMatch]; decide)
  | tblload | dcoinit | dcorun f | envcfg | amprun => simp [opcode_of_decode h, rowMatch] at hop

/-! ## Issue -/

namespace Machine

theorem issueCommand_ok {c : Word} {i : Instr} (h : decode c = .ok i) (s : State) : issueCommand c s = exec i s := by
  simp [issueCommand, h]

theorem issueCommand_error {c : Word} {r : DecodeReject} (h : decode c = .error r) (s : State) :
    issueCommand c s = illegalWord s := by
  simp [issueCommand, h]

/-- On a running block an illegal word completes with `E_ILLEGAL` (`30_encoding.md` R55). -/
theorem illegalWord_running {s : State} (h : s.halt = false) : illegalWord s = .next (complete .eIllegal s) :=
  unlessHalted_running h _

/-- Every command tests `HALT` first (`30_encoding.md` R51 step 1). -/
theorem exec_halted {s : State} (h : s.halt = true) (i : Instr) : exec i s = .next (complete .eHalted s) := by
  cases i with
  | tblload | dcoinit | dcorun f | envcfg | envrun b | amprun => exact unlessHalted_halted h _

theorem issueCommand_halted {s : State} (h : s.halt = true) (c : Word) :
    issueCommand c s = .next (complete .eHalted s) := by
  cases hd : decode c with
  | ok i => rw [issueCommand_ok hd, exec_halted h]
  | error r => rw [issueCommand_error hd, illegalWord, unlessHalted_halted h]

/-- A step whose event is the write of a command word issues the word and answers with the code it left. -/
theorem step_commandEvent {s : State} {c : Word} {rest : List HostEvent} (h : s.inbox = commandEvent c :: rest) :
    step s = andThen (issueCommand c { s with inbox := rest })
      fun t => .next (answer (.written t.lastErr) t) := by
  rw [step, h]
  exact perform_commandEvent c _

end Machine

/-! ## The obligations -/

/-- Settles O2: each row by the decoder's row test, the count through the words of the instructions. -/
theorem decoderIsTheOpcodeMap : Obligations.DecoderIsTheOpcodeMap := by
  have row {c : Word} {i : Instr} (hi : i ∈ rowsOf c) : decode c = .ok i ↔ c &&& rowMask i = rowMatch i :=
    decode_eq_ok_iff_row.trans (and_iff_right hi)
  refine ⟨fun c => row (by simp [rowsOf]), fun c => row (by simp [rowsOf]), fun c f => ?_,
    fun c => row (by simp [rowsOf]), fun c b => ?_, fun c => row (by simp [rowsOf]), ?_⟩
  · rw [decode_eq_ok_iff_row, dcorun_mem_rowsOf, and_comm]
    rfl
  · rw [decode_eq_ok_iff_row, envrun_mem_rowsOf, and_comm]
    rfl
  · rw [decodable_eq_range_encode, Set.ncard_range_of_injective encode_injective, card_instr]

/-- Settles O5: a word of each illegal kind is no command, because a command has its row's opcode and zeros. -/
theorem illegalWordsChangeOnlyLasterr : Obligations.IllegalWordsChangeOnlyLasterr := by
  refine ⟨fun c => ?_, fun c hop => ?_, fun c hop hrest => ?_, fun c hop hrest => ?_, fun c hop hrest => ?_,
    fun c r s hc hs => ?_⟩
  · simp only [rejected_iff, ne_eq, decode_eq_ok_iff_row, not_and]
  · refine rejected_iff.2 fun i hi => ?_
    have := opcode_range_of_decode hi
    omega
  · exact rejected_iff.2 fun i hi => hrest (formatZ_rest_zero hi hop)
  · exact rejected_iff.2 fun i hi => hrest (formatF_rest_zero hi hop)
  · exact rejected_iff.2 fun i hi => hrest (formatT_rest_zero hi hop)
  · rw [issueCommand_error hc, illegalWord_running hs, complete]

/-- Settles O6: the three steps of the dispatch, each followed by the answer to the write. -/
theorem stepRunsTheIssuedCommand : Obligations.StepRunsTheIssuedCommand := by
  intro s c rest hin
  rw [step_commandEvent hin]
  refine ⟨fun hs => ?_, fun r hs hc => ?_, fun i hc => ?_⟩
  · rw [issueCommand_halted (s := { s with inbox := rest }) hs]
    rfl
  · rw [issueCommand_error hc, illegalWord_running (s := { s with inbox := rest }) hs]
    rfl
  · rw [issueCommand_ok hc]
    cases exec i { s with inbox := rest } <;> rfl

end Sys2Proof
end

section
/-!
The sine table, `40_sinetable.md` R60 and R62: the entry that two resource bytes form, what the copy loop of `TBLLOAD`
leaves in every entry, and why no event but the external reset changes a valid table.
-/

namespace Sys2Proof

open Machine Safety

/-! ## Entries of the resource -/

namespace Machine

/-- The table entry that bytes `2i` and `2i+1` of a resource form, if both are written (`40_sinetable.md` R60, R61). -/
def resEntry (m : Memory 8) (i : Nat) : Option Half :=
  (cellAt m (2 * i)).bind fun low => (cellAt m (2 * i + 1)).map (tableEntry low)

theorem resEntry_written {m : Memory 8} {i : Nat} {low high : Byte} (hl : cellAt m (2 * i) = some low)
    (hh : cellAt m (2 * i + 1) = some high) : resEntry m i = some (high ++ low) := by
  simp [resEntry, hl, hh, tableEntry]

/-- One unwritten byte leaves its entry without a value. -/
theorem resEntry_unwritten {m : Memory 8} {k : Nat} (h : cellAt m k = none) : resEntry m (k / 2) = none := by
  rcases Nat.even_or_odd' k with ⟨i, rfl | rfl⟩
  · rw [Nat.mul_div_cancel_left i two_pos, resEntry, h, Option.bind_none]
  · rw [show (2 * i + 1) / 2 = i by omega, resEntry, h]
    cases cellAt m (2 * i) <;> rfl

theorem resEntry_isSome {s : State} (h : ResourceFull s) {i : Nat} (hi : i < 256) :
    (resEntry s.res i).isSome = true := by
  obtain ⟨low, hl⟩ := Option.isSome_iff_exists.1 (h (2 * i) (show 2 * i < 512 by omega))
  obtain ⟨high, hh⟩ := Option.isSome_iff_exists.1 (h (2 * i + 1) (show 2 * i + 1 < 512 by omega))
  rw [resEntry_written hl hh, Option.isSome_some]

/-! ## The copy loop of `TBLLOAD` -/

/-- One entry of the copy: store the resource's entry, or fault if it has no value. -/
theorem copyEntry_eq (i : Nat) (s : State) : copyEntry i s = withValue (resEntry s.res i) .unwrittenResource
    fun v => .next { s with tbl := setCell s.tbl i v } := by
  unfold copyEntry resEntry
  cases cellAt s.res (2 * i) <;> cases cellAt s.res (2 * i + 1) <;> rfl

/-- The copy of an entry with a value goes on with the same resource. -/
theorem copyEntry_runs {i : Nat} {s : State} {m : Memory 8} (hres : s.res = m) (h : (resEntry m i).isSome = true) :
    ∃ t, copyEntry i s = .next t ∧ t.res = m := by
  subst hres
  obtain ⟨v, hv⟩ := Option.isSome_iff_exists.1 h
  rw [copyEntry_eq, hv]
  exact ⟨_, rfl, rfl⟩

/-- The copy loop runs to its end if every entry it copies has a value. -/
theorem copyLoop_runs {k : Nat} {s : State} (h : ∀ i, i < k → (resEntry s.res i).isSome = true) :
    ∃ u, forSamples copyEntry k s = .next u := by
  obtain ⟨u, hu, -⟩ := forSamples_runs (body := copyEntry) (fun _ v => v.res = s.res) rfl
    fun i _ hi hres => copyEntry_runs hres (h i hi)
  exact ⟨u, hu⟩

/-- The copy loop faults if an entry it copies has no value. -/
theorem copyLoop_faults {k i : Nat} {s : State} (hi : i < k) (h : resEntry s.res i = none) :
    forSamples copyEntry k s = .fault .unwrittenResource := by
  refine forSamples_first_fault (fun j => (resEntry s.res j).isSome = true) (fun _ v => v.res = s.res) rfl
    (fun j v _ hres hj => copyEntry_runs hres hj) (fun j v _ hres hj => ?_) ⟨i, by simp [h], hi⟩
  rw [copyEntry_eq, hres, Option.not_isSome_iff_eq_none.1 hj, withValue_none]

/-- After `k` entries the table holds the resource's entries below `k`, and from `k` on what it held before. -/
theorem copyLoop_cellAt {k : Nat} {s u : State} (h : forSamples copyEntry k s = .next u) (i : Nat) :
    cellAt u.tbl i = if i < k then resEntry s.res i else cellAt s.tbl i := by
  suffices hP : u.res = s.res ∧ cellAt u.tbl i = if i < k then resEntry s.res i else cellAt s.tbl i from hP.2
  refine forSamples_keeps
    (fun j v => v.res = s.res ∧ cellAt v.tbl i = if i < j then resEntry s.res i else cellAt s.tbl i)
    ⟨rfl, rfl⟩ (fun j v v' _ ⟨hres, hcell⟩ hb => ?_) h
  rw [copyEntry_eq, withValue_eq_next] at hb
  obtain ⟨e, he, hv'⟩ := hb
  cases hv'
  refine ⟨hres, ?_⟩
  rcases eq_or_ne i j with rfl | hij
  · rw [cellAt_setCell_same, if_pos (Nat.lt_succ_self i), ← hres, he]
  · rw [cellAt_setCell_ne _ _ hij, hcell]
    exact if_congr (by omega) rfl rfl

/-! ## The four outcomes of `TBLLOAD` -/

/-- The two tests of R60 on `RES_DESC`, on its bits. -/
theorem resourceAccepted_iff {d : Word} :
    resourceAccepted d = true ↔ d.getLsbD 31 = true ∧ (d.extractLsb' 0 31).toNat = 512 := by
  rw [resourceAccepted, Bool.and_eq_true, beq_iff_eq, resPresent, resLen]

theorem execTblload_valid {s : State} (h : s.halt = false) (hv : s.tblValid = true) :
    execTblload s = .next (complete .eState s) := by
  rw [execTblload, unlessHalted_running h, if_pos hv]

theorem execTblload_rejected {s : State} (h : s.halt = false) (hv : s.tblValid = false)
    (hd : resourceAccepted s.resDesc = false) : execTblload s = .next (completeFatal s) := by
  simp [execTblload, unlessHalted_running h, hv, hd]

theorem execTblload_accepted {s : State} (h : s.halt = false) (hv : s.tblValid = false)
    (hd : resourceAccepted s.resDesc = true) : execTblload s = andThen (forSamples copyEntry Config.tableLen s)
      fun t => .next (complete .ok { t with tblValid := true }) := by
  simp [execTblload, unlessHalted_running h, hv, hd]

/-! ## Who changes the table -/

theorem readRate_state (c : Csr) (r : Half) (s : State) : (readRate c r s).2 = s ∨ (readRate c r s).2 = drawn s := by
  cases h : s.envCfg with
  | true => rw [readRate_configured h]; exact .inl rfl
  | false => rw [readRate_unconfigured h]; exact .inr rfl

theorem readBuffer_state (l : Loc) (m : Memory 32) (k : Nat) (s : State) :
    (readBuffer l m k s).2 = s ∨ (readBuffer l m k s).2 = drawn s := by
  cases h : cellAt m k with
  | some v => rw [readBuffer_written h]; exact .inl rfl
  | none => rw [readBuffer_unwritten h]; exact .inr rfl

theorem readTable_state (k : Nat) (s : State) : (readTable k s).2 = s ∨ (readTable k s).2 = drawn s := by
  unfold readTable
  split
  · split
    · exact .inl rfl
    · exact .inr rfl
  · exact .inr rfl

/-- A read of a location leaves the state as it was, or counts a draw. -/
theorem readLoc_state {l : Loc} {s : State} {r : Word × State} (h : readLoc l s = some r) :
    r.2 = s ∨ r.2 = drawn s := by
  cases l with
  | csr c =>
    cases c with
    | cmd => cases h
    | attackRate | releaseRate => cases h; exact readRate_state _ _ s
    | status | arg0 | arg1 | resDesc | phase | envLevel | params => cases h; exact .inl rfl
  | res k => cases h; exact ite_eq_or_eq _ _ _
  | tbl k => cases h; exact readTable_state k s
  | sig k | gain k | out k => cases h; exact readBuffer_state _ _ k s

/-- A host read changes nothing of the block (`20_memory.md` R39): it gives an answer, and may draw a free value. -/
theorem hostRead_frame (a : Addr) (s : State) :
    hostRead a s = { s with answers := (hostRead a s).answers, draws := (hostRead a s).draws } := by
  have hread {l : Loc} {r : Word × State} (h : readLoc l s = some r) : r.2 = { s with draws := r.2.draws } := by
    rcases readLoc_state h with hr | hr <;> exact hr ▸ rfl
  unfold hostRead
  split
  · next r hr =>
    obtain ⟨l, -, hl⟩ := Option.bind_eq_some_iff.1 hr
    rw [hread hl]
    rfl
  · rfl

/-- No command but `TBLLOAD` changes the table or `TBL_VALID`. -/
theorem exec_keeps_table {i : Instr} (hi : i ≠ .tblload) {s t : State} (h : exec i s = .next t) :
    t.tbl = s.tbl ∧ t.tblValid = s.tblValid := by
  cases i with
  | tblload => exact absurd rfl hi
  | dcoinit => rcases execDcoinit_eq_next.1 h with ⟨-, rfl⟩ | ⟨-, rfl⟩ <;> exact ⟨rfl, rfl⟩
  | dcorun fcw =>
    rcases execDcorun_eq_next.1 h with ⟨-, rfl⟩ | ⟨-, -, rfl⟩ | ⟨-, -, u, hu, rfl⟩
    · exact ⟨rfl, rfl⟩
    · exact ⟨rfl, rfl⟩
    · rw [dcoLoop_frame hu]
      exact ⟨rfl, rfl⟩
  | envcfg => rcases execEnvcfg_eq_next.1 h with ⟨-, rfl⟩ | ⟨-, -, rfl⟩ | ⟨-, -, rfl⟩ <;> exact ⟨rfl, rfl⟩
  | envrun trig =>
    rcases execEnvrun_eq_next.1 h with ⟨-, rfl⟩ | ⟨-, -, rfl⟩ | ⟨-, -, u, hu, rfl⟩
    · exact ⟨rfl, rfl⟩
    · exact ⟨rfl, rfl⟩
    · rw [envLoop_frame hu]
      exact ⟨applyTrigger_tbl trig s, applyTrigger_tblValid trig s⟩
  | amprun =>
    rcases execAmprun_eq_next.1 h with ⟨-, rfl⟩ | ⟨-, u, hu, rfl⟩
    · exact ⟨rfl, rfl⟩
    · rw [ampLoop_frame hu]
      exact ⟨rfl, rfl⟩

end Machine

/-- The state has the valid table `m`. -/
def HasTable (m : Memory 16) (s : State) : Prop := s.tbl = m ∧ s.tblValid = true

namespace HasTable

variable {m : Memory 16} {s t : State}

/-- A second `TBLLOAD` is refused, and no other command writes the table. -/
theorem after_exec {i : Instr} (hs : HasTable m s) (h : exec i s = .next t) : HasTable m t := by
  obtain ⟨htbl, hvalid⟩ := hs
  by_cases hi : i = .tblload
  · subst hi
    rcases execTblload_eq_next.1 h with ⟨-, rfl⟩ | ⟨-, -, rfl⟩ | ⟨-, hnot, -⟩ | ⟨-, hnot, -⟩
    · exact ⟨htbl, hvalid⟩
    · exact ⟨htbl, hvalid⟩
    · exact absurd hvalid (Bool.eq_false_iff.1 hnot)
    · exact absurd hvalid (Bool.eq_false_iff.1 hnot)
  · obtain ⟨ht, hv⟩ := exec_keeps_table hi h
    exact ⟨ht.trans htbl, hv.trans hvalid⟩

theorem after_issueCommand {c : Word} (hs : HasTable m s) (h : issueCommand c s = .next t) : HasTable m t := by
  rcases issueCommand_eq_next h with ⟨i, -, hi⟩ | ⟨k, rfl⟩
  · exact hs.after_exec hi
  · exact hs

/-- A host write stores to another item, is refused, or issues a command. -/
theorem after_hostWrite {a : Addr} {d : Word} (hs : HasTable m s) (h : hostWrite a d s = .next t) : HasTable m t := by
  rcases hostWrite_cases h with ⟨-, u, hu, rfl⟩ | rfl | ⟨-, rfl⟩ | ⟨-, rfl⟩ | ⟨-, rfl⟩ | ⟨k, -, rfl⟩ | ⟨k, -, rfl⟩
    | ⟨k, -, rfl⟩ | ⟨k, -, rfl⟩
  · exact hs.after_issueCommand (t := u) hu
  all_goals exact hs

theorem after_hostRead (hs : HasTable m s) (a : Addr) : HasTable m (hostRead a s) := by
  rw [hostRead_frame]
  exact hs

theorem after_perform {e : HostEvent} (hs : HasTable m s) (he : e ≠ .reset) (h : perform e s = .next t) :
    HasTable m t := by
  cases e with
  | read a => cases h; exact hs.after_hostRead a
  | write a d => exact hs.after_hostWrite h
  | reset => exact absurd rfl he

end HasTable

/-- What every event of a run keeps, the run keeps. -/
theorem runEvents_keeps (P : State → Prop) {es : List HostEvent}
    (hstep : ∀ e ∈ es, ∀ s t, P s → perform e s = .next t → P t) {s t : State} (h0 : P s)
    (h : runEvents es s = .next t) : P t := by
  induction es generalizing s with
  | nil => cases h; exact h0
  | cons e es ih =>
    obtain ⟨u, hu, ht⟩ := andThen_eq_next.1 h
    exact ih (fun e he => hstep e (List.mem_cons_of_mem _ he)) (hstep e List.mem_cons_self s u h0 hu) ht

/-! ## The obligations -/

/-- Settles O12: the tests of `TBLLOAD` in their order, then the copy loop, which runs to its end exactly if no byte is
unwritten. -/
theorem tblloadLoadsTheWholeTable : Obligations.TblloadLoadsTheWholeTable := by
  intro s
  refine ⟨fun hs => exec_halted hs .tblload, execTblload_valid, fun hs hv hd => ?_, fun hs hv hpresent hlen hfull => ?_,
    fun k hs hv hpresent hlen hk hnone => ?_⟩
  · refine execTblload_rejected hs hv (Bool.eq_false_iff.2 fun hacc => ?_)
    obtain ⟨hpresent, hlen⟩ := resourceAccepted_iff.1 hacc
    exact hd.elim (fun hd => Bool.eq_false_iff.1 hd hpresent) fun hd => hd hlen
  · obtain ⟨u, hu⟩ := copyLoop_runs (k := 256) fun i hi => resEntry_isSome hfull hi
    have hexec : exec .tblload s = .next (complete .ok { u with tblValid := true }) := by
      refine (execTblload_accepted hs hv (resourceAccepted_iff.2 ⟨hpresent, hlen⟩)).trans ?_
      rw [hu, andThen_next]
    refine ⟨u.tbl, ?_, fun i low high hi hl hh => ?_, fun i hi => ?_⟩
    · rw [hexec, copyLoop_frame hu]
      rfl
    · rw [copyLoop_cellAt hu, if_pos hi, resEntry_written hl hh]
    · rw [copyLoop_cellAt hu, if_neg (by omega)]
  · refine (execTblload_accepted hs hv (resourceAccepted_iff.2 ⟨hpresent, hlen⟩)).trans ?_
    rw [copyLoop_faults (i := k / 2) (show k / 2 < 256 by omega) (resEntry_unwritten hnone), andThen_fault]

/-- Settles O13: `HasTable` of the first table is kept by every event but the reset. -/
theorem validTableIsImmutable : Obligations.ValidTableIsImmutable := by
  intro es s t hvalid hreset h
  have hno (e : HostEvent) (he : e ∈ es) : e ≠ .reset := fun heq => hreset (heq ▸ he)
  exact runEvents_keeps (HasTable s.tbl) (fun e he _ _ hs hp => hs.after_perform (hno e he) hp) ⟨rfl, hvalid⟩ h

end Sys2Proof
end

section
/-!
The oscillator, `41_oscillator.md` R70 to R76: the bounds that `INTERP` keeps, the fields of the phase, the output
function `S(P)`, and what the sample loop of `DCORUN` leaves in `SIG` and in the phase.
-/

namespace Sys2Proof

open Machine Safety

namespace Machine

/-! ## The interpolator's bounds -/

/-- Every mode rounds to the floor, or, where there is a fraction, to the integer above it (`44_interpolator.md` R91). -/
theorem roundDiv256_cases (mode : InterpMode) (num : Int) :
    roundDiv256 mode num = num / 256 ∨ (roundDiv256 mode num = num / 256 + 1 ∧ 0 < num % 256) := by
  cases mode with
  | floor => exact .inl rfl
  | halfUp | halfEven | halfAway =>
    simp only [roundDiv256]
    split <;> omega

theorem le_roundDiv256 {m num : Int} (h : 256 * m ≤ num) (mode : InterpMode) : m ≤ roundDiv256 mode num := by
  rcases roundDiv256_cases mode num with hr | ⟨hr, -⟩ <;> omega

theorem roundDiv256_le {m num : Int} (h : num ≤ 256 * m) (mode : InterpMode) : roundDiv256 mode num ≤ m := by
  rcases roundDiv256_cases mode num with hr | ⟨hr, hfrac⟩ <;> omega

/-- The numerator is a weighted sum of the two values. -/
theorem interpNum_eq_weighted (v0 v1 : Int) (w : Nat) : interpNum v0 v1 w = (256 - w) * v0 + w * v1 := by
  rw [interpNum]
  ring

/-- A lower bound of both values bounds the interpolation (`44_interpolator.md` R93). -/
theorem le_interp {m v0 v1 : Int} {w : Nat} (mode : InterpMode) (hw : w ≤ 256) (h0 : m ≤ v0) (h1 : m ≤ v1) :
    m ≤ interp mode v0 v1 w := by
  refine le_roundDiv256 ?_ mode
  have hrest : (0 : Int) ≤ 256 - w := by omega
  calc 256 * m = (256 - w) * m + w * m := by ring
    _ ≤ (256 - w) * v0 + w * v1 := by gcongr
    _ = interpNum v0 v1 w := (interpNum_eq_weighted v0 v1 w).symm

/-- An upper bound of both values bounds the interpolation (`44_interpolator.md` R93). -/
theorem interp_le {m v0 v1 : Int} {w : Nat} (mode : InterpMode) (hw : w ≤ 256) (h0 : v0 ≤ m) (h1 : v1 ≤ m) :
    interp mode v0 v1 w ≤ m := by
  refine roundDiv256_le ?_ mode
  have hrest : (0 : Int) ≤ 256 - w := by omega
  calc interpNum v0 v1 w = (256 - w) * v0 + w * v1 := interpNum_eq_weighted v0 v1 w
    _ ≤ (256 - w) * m + w * m := by gcongr
    _ = 256 * m := by ring

/-- At weight 0 every mode gives the first value (`44_interpolator.md` R92). -/
theorem interp_weight_zero (mode : InterpMode) (v0 v1 : Int) : interp mode v0 v1 0 = v0 := by
  have hnum : interpNum v0 v1 0 = 256 * v0 := by simp [interpNum]
  exact le_antisymm (roundDiv256_le hnum.le mode) (le_roundDiv256 hnum.ge mode)

/-! ## The fields of the phase -/

theorem index0_eq (p : Half) : index0 p = p.toNat / 256 := by
  have := p.isLt
  rw [index0, BitVec.extractLsb'_toNat, Nat.shiftRight_eq_div_pow]
  omega

theorem weight_eq (p : Half) : weight p = p.toNat % 256 := by
  rw [weight, BitVec.extractLsb'_toNat, Nat.shiftRight_zero]

theorem index0_lt (p : Half) : index0 p < 256 := (p.extractLsb' 8 8).isLt

theorem index1_lt (p : Half) : index1 p < 256 := Nat.mod_lt _ (by decide)

theorem weight_lt (p : Half) : weight p < 256 := (p.extractLsb' 0 8).isLt

/-- The entry after the last is the first (`41_oscillator.md` R74). -/
theorem index1_of_last {p : Half} (h : index0 p = 255) : index1 p = 0 := by rw [index1, h]

/-! ## One sample's value -/

theorem toInt_range (v : Half) : -32768 ≤ v.toInt ∧ v.toInt ≤ 32767 := by
  have hle := v.le_toInt
  have hlt := v.toInt_lt
  omega

/-- A sample holds the interpolated value: 16 bits are enough (`41_oscillator.md` R71). -/
theorem sampleBetween_toInt (mode : InterpMode) (v0 v1 p : Half) :
    (sampleBetween mode v0 v1 p).toInt = interp mode v0.toInt v1.toInt (weight p) := by
  obtain ⟨hlow0, hhigh0⟩ := toInt_range v0
  obtain ⟨hlow1, hhigh1⟩ := toInt_range v1
  have hw := (weight_lt p).le
  have hlow := le_interp mode hw hlow0 hlow1
  have hhigh := interp_le mode hw hhigh0 hhigh1
  exact BitVec.toInt_ofInt_eq_self (by decide) hlow (by omega)

theorem sampleBetween_weight_zero {p : Half} (h : weight p = 0) (mode : InterpMode) (v0 v1 : Half) :
    sampleBetween mode v0 v1 p = v0 := by
  rw [← BitVec.toInt_inj, sampleBetween_toInt, h, interp_weight_zero]

theorem oscOut_toInt (s : State) (p : Half) : (oscOut s p).toInt
    = interp s.cfg.mode (tableValue s (index0 p)).toInt (tableValue s (index1 p)).toInt (weight p) :=
  sampleBetween_toInt _ _ _ _

theorem oscOut_weight_zero {p : Half} (h : weight p = 0) (s : State) : oscOut s p = tableValue s (index0 p) :=
  sampleBetween_weight_zero h _ _ _

/-- Storing a sample discards nothing, in both widths (`41_oscillator.md` R76). -/
theorem signedElement_sextElement (w : Width) (v : Half) : signedElement w (sextElement w v) = v.toInt := by
  cases w with
  | w16 => simp [signedElement, sextElement, elementOfInt]
  | w32 =>
    obtain ⟨hlow, hhigh⟩ := toInt_range v
    exact BitVec.toInt_ofInt_eq_self (by decide) (by omega) (by omega)

/-! ## The running phase -/

theorem phaseAfter_zero (p d : Half) : phaseAfter p d 0 = p := by simp [phaseAfter]

theorem phaseAfter_succ (p d : Half) (k : Nat) : phaseAfter p d (k + 1) = phaseAfter p d k + d := by
  rw [phaseAfter, phaseAfter, Nat.succ_mul, ← Nat.add_assoc, BitVec.ofNat_add, BitVec.ofNat_toNat, BitVec.setWidth_eq]

theorem phaseAfter_zeroWord (p : Half) (k : Nat) : phaseAfter p 0#16 k = p := by simp [phaseAfter]

/-! ## The sample loop of `DCORUN` -/

theorem cellAt_tbl_of_full {s : State} (h : TableFull s) {i : Nat} (hi : i < 256) :
    cellAt s.tbl i = some (tableValue s i) := by
  obtain ⟨v, hv⟩ := Option.isSome_iff_exists.1 (h i hi)
  rw [tableValue, hv, Option.getD_some]

/-- With a full table one sample stores `S(PHASE)` and advances the phase. -/
theorem dcoSample_full {s : State} (h : TableFull s) (fcw : Half) (n : Nat) : dcoSample fcw n s = .next { s with
    sig := setCell s.sig n (sextElement s.cfg.width (oscOut s s.phase)), phase := s.phase + fcw } :=
  dcoSample_eq_next.2
    ⟨_, _, cellAt_tbl_of_full h (index0_lt s.phase), cellAt_tbl_of_full h (index1_lt s.phase), rfl⟩

/-- `SIG` after `k` samples of `DCORUN fcw` from `s`: the samples below `k`, and from `k` on what stood there. -/
def dcoCell (fcw : Half) (s : State) (k i : Nat) : Option Word :=
  if i < k then some (sextElement s.cfg.width (oscOut s (phaseAfter s.phase fcw i))) else cellAt s.sig i

theorem dcoCell_of_lt {k i : Nat} (h : i < k) (fcw : Half) (s : State) :
    dcoCell fcw s k i = some (sextElement s.cfg.width (oscOut s (phaseAfter s.phase fcw i))) := if_pos h

theorem dcoCell_of_le {k i : Nat} (h : k ≤ i) (fcw : Half) (s : State) : dcoCell fcw s k i = cellAt s.sig i :=
  if_neg h.not_gt

/-- `v` is `s` after `k` samples of `DCORUN fcw`. -/
structure DcoLoop (fcw : Half) (s : State) (k : Nat) (v : State) : Prop where
  frame : v = { s with sig := v.sig, phase := phaseAfter s.phase fcw k }
  cells : ∀ i, cellAt v.sig i = dcoCell fcw s k i

theorem DcoLoop.start (fcw : Half) (s : State) : DcoLoop fcw s 0 s where
  frame := by rw [phaseAfter_zero]
  cells i := (dcoCell_of_le (Nat.zero_le i) fcw s).symm

theorem DcoLoop.sample {fcw : Half} {s v : State} {k : Nat} (hfull : TableFull s) (hv : DcoLoop fcw s k v) :
    ∃ u, dcoSample fcw k v = .next u ∧ DcoLoop fcw s (k + 1) u := by
  obtain ⟨hframe, hcells⟩ := hv
  generalize v.sig = m at hframe hcells
  subst hframe
  refine ⟨_, dcoSample_full (s := { s with sig := m, phase := phaseAfter s.phase fcw k }) hfull fcw k,
    by rw [phaseAfter_succ], fun i => ?_⟩
  rcases lt_trichotomy i k with hi | rfl | hi
  · rw [cellAt_setCell_ne _ _ hi.ne, hcells, dcoCell_of_lt hi, dcoCell_of_lt (hi.trans k.lt_succ_self)]
  · rw [cellAt_setCell_same, dcoCell_of_lt i.lt_succ_self]
    rfl
  · rw [cellAt_setCell_ne _ _ hi.ne', hcells, dcoCell_of_le hi.le, dcoCell_of_le hi]

/-- With a full table the sample loop runs to its end. -/
theorem dcoLoop_full {s : State} (hfull : TableFull s) (fcw : Half) (k : Nat) :
    ∃ u, forSamples (dcoSample fcw) k s = .next u ∧ DcoLoop fcw s k u :=
  forSamples_runs (DcoLoop fcw s) (DcoLoop.start fcw s) fun _ _ _ hv => hv.sample hfull

/-! ## The outcomes of the two commands -/

theorem exec_dcoinit_running {s : State} (h : s.halt = false) :
    exec .dcoinit s = .next (complete .ok { s with phase := 0#16 }) :=
  execDcoinit_eq_next.2 (.inr ⟨h, rfl⟩)

theorem exec_dcorun_notValid {s : State} (h : s.halt = false) (hv : s.tblValid = false) (fcw : Half) :
    exec (.dcorun fcw) s = .next (complete .eState s) :=
  execDcorun_eq_next.2 (.inr (.inl ⟨h, hv, rfl⟩))

/-- `DCORUN` with a full table: the phase it leaves and every element of `SIG` (`41_oscillator.md` R72). -/
theorem exec_dcorun_full {s : State} (h : s.halt = false) (hv : s.tblValid = true) (hfull : TableFull s) (fcw : Half) :
    ∃ sig', exec (.dcorun fcw) s = .next { s with
        sig := sig', phase := phaseAfter s.phase fcw s.cfg.n, lastErr := .ok }
      ∧ ∀ i, cellAt sig' i = dcoCell fcw s s.cfg.n i := by
  obtain ⟨u, hu, hframe, hcells⟩ := dcoLoop_full hfull fcw s.cfg.n
  refine ⟨u.sig, execDcorun_eq_next.2 (.inr (.inr ⟨h, hv, u, hu, ?_⟩)), hcells⟩
  rw [hframe]
  rfl

end Machine

/-! ## The obligations -/

/-- Settles O14: a second `DCOINIT` runs on a block that is still running and zeroes a phase that is 0. -/
theorem dcoinitZeroesThePhase : Obligations.DcoinitZeroesThePhase := by
  intro s
  refine ⟨fun hs => exec_halted hs .dcoinit, exec_dcoinit_running, fun hs => ?_⟩
  rw [exec_dcoinit_running hs, andThen_next]
  exact exec_dcoinit_running hs

/-- Settles O15: the fields by arithmetic, `S(P)` by the interpolator's bounds, which fit 16 bits. -/
theorem phaseSplitsIntoIndexAndWeight : Obligations.PhaseSplitsIntoIndexAndWeight := by
  intro p
  exact ⟨index0_eq p, by rw [index1, index0_eq], weight_eq p, index1_of_last,
    fun mode v0 v1 => sampleBetween_toInt mode v0 v1 p, fun mode v0 v1 hw => sampleBetween_weight_zero hw mode v0 v1,
    fun s => oscOut_toInt s p, fun s hw => oscOut_weight_zero hw s⟩

/-- Settles O16: the two tests of `DCORUN`, then the sample loop. -/
theorem dcorunFillsTheSignalBuffer : Obligations.DcorunFillsTheSignalBuffer := by
  intro fcw s
  refine ⟨fun hs => exec_halted hs _, fun hs hv => exec_dcorun_notValid hs hv fcw, fun hs hv hfull => ?_⟩
  obtain ⟨sig', hexec, hcells⟩ := exec_dcorun_full hs hv hfull fcw
  exact ⟨sig', hexec, fun n hn => (hcells n).trans (dcoCell_of_lt hn fcw s),
    fun n hn => (hcells n).trans (dcoCell_of_le hn fcw s)⟩

/-- Settles O19: at index 255 the second entry of a sample is entry 0. -/
theorem tableWrapsAtItsEnd : Obligations.TableWrapsAtItsEnd := by
  refine ⟨fun p => ⟨Nat.le_of_lt_succ (index0_lt p), Nat.le_of_lt_succ (index1_lt p)⟩,
    fun fcw n s v255 v0 hlast h255 h0 => ?_⟩
  rw [← hlast] at h255
  rw [← index1_of_last hlast] at h0
  exact dcoSample_eq_next.2 ⟨v255, v0, h255, h0, rfl⟩

/-- Settles O20: the word 0 leaves every sample at the start phase; phase 0 has index 0 and weight 0. -/
theorem zeroWordGivesAConstant : Obligations.ZeroWordGivesAConstant := by
  intro s hs hv hfull
  obtain ⟨sig', hexec, hcells⟩ := exec_dcorun_full hs hv hfull 0#16
  have hconst (n : Nat) (hn : n < s.cfg.n) :
      cellAt sig' n = some (sextElement s.cfg.width (oscOut s s.phase)) := by
    rw [hcells, dcoCell_of_lt hn, phaseAfter_zeroWord]
  refine ⟨_, hexec, phaseAfter_zeroWord _ _, hconst, fun hp n hn => ?_⟩
  have hzero : oscOut s s.phase = tableValue s 0 := by
    rw [hp]
    exact oscOut_weight_zero (by decide) s
  exact (hconst n hn).trans (by rw [hzero])

/-- Settles O21: the stored element is `S(P)` in full, and an interpolation stays between its two values. -/
theorem samplesStayBetweenTheirEntries : Obligations.SamplesStayBetweenTheirEntries := by
  intro fcw s hs hv hfull
  obtain ⟨sig', hexec, hcells⟩ := exec_dcorun_full hs hv hfull fcw
  refine ⟨_, hexec, fun n hn => ?_⟩
  intro p
  refine ⟨_, (hcells n).trans (dcoCell_of_lt hn fcw s), ?_⟩
  have hfits := toInt_range (oscOut s p)
  have hw := (weight_lt p).le
  rw [oscOut_toInt] at hfits
  rw [signedElement_sextElement, oscOut_toInt]
  exact ⟨le_interp _ hw (min_le_left _ _) (min_le_right _ _), interp_le _ hw (le_max_left _ _) (le_max_right _ _),
    hfits, rfl⟩

end Sys2Proof
end

section
/-!
The envelope, `42_envelope.md` R80 to R83: the transitions of the automaton, its closed forms over many samples, the
rates of `ENVCFG`, and what the sample loop of `ENVRUN` leaves in `GAIN`, in the state and in the level.
-/

namespace Sys2Proof

open Machine Safety

namespace Machine

/-! ## One transition -/

/-- A sum above 65535 is written as 65535 and ends the attack (`42_envelope.md` R82). -/
theorem envNext_attack_ends {a l : Half} (h : 65535 < l.toNat + a.toNat) (r : Half) :
    envNext a r .attack l = (.release, 0xFFFF#16) := if_pos h

/-- Any other sum, 65535 included, keeps the attack (`42_envelope.md` R82). -/
theorem envNext_attack_rises {a l : Half} (h : l.toNat + a.toNat ≤ 65535) (r : Half) :
    envNext a r .attack l = (.attack, BitVec.ofNat 16 (l.toNat + a.toNat)) := if_neg h.not_gt

/-- A negative difference is written as 0 and ends the release (`42_envelope.md` R82). -/
theorem envNext_release_ends {r l : Half} (h : l.toNat < r.toNat) (a : Half) :
    envNext a r .release l = (.off, 0#16) := if_pos (by omega)

/-- Any other difference, 0 included, keeps the release (`42_envelope.md` R82). -/
theorem envNext_release_falls {r l : Half} (h : r.toNat ≤ l.toNat) (a : Half) :
    envNext a r .release l = (.release, BitVec.ofNat 16 (l.toNat - r.toNat)) := by
  simp only [envNext]
  rw [if_neg (by omega), ← Int.ofNat_sub h, BitVec.ofInt_natCast]

theorem toNat_ofNat_half {n : Nat} (h : n ≤ 65535) : (BitVec.ofNat 16 n).toNat = n :=
  (BitVec.toNat_ofNat n 16).trans (Nat.mod_eq_of_lt (Nat.lt_succ_of_le h))

/-- A sample in Attack does not lower the level (`42_envelope.md` R83). -/
theorem le_envNext_attack (a r l : Half) : l.toNat ≤ (envNext a r .attack l).2.toNat := by
  rcases Nat.lt_or_ge 65535 (l.toNat + a.toNat) with h | h
  · rw [envNext_attack_ends h]
    exact Nat.le_of_lt_succ l.isLt
  · rw [envNext_attack_rises h, toNat_ofNat_half h]
    exact Nat.le_add_right _ _

/-- A sample in Release does not raise the level (`42_envelope.md` R83). -/
theorem envNext_release_le (a r l : Half) : (envNext a r .release l).2.toNat ≤ l.toNat := by
  rcases Nat.lt_or_ge l.toNat r.toNat with h | h
  · rw [envNext_release_ends h]
    exact Nat.zero_le _
  · rw [envNext_release_falls h, toNat_ofNat_half (by omega)]
    exact Nat.sub_le _ _

/-! ## Many samples -/

@[simp] theorem envAfter_zero (a r : Half) (u : EnvState × Half) : envAfter a r 0 u = u := rfl

theorem envAfter_succ (a r : Half) (k : Nat) (u : EnvState × Half) :
    envAfter a r (k + 1) u = envNext a r (envAfter a r k u).1 (envAfter a r k u).2 := rfl

/-- The attack rises by its rate at each sample while the sum fits (`42_envelope.md` R83). -/
theorem envAfter_attack {a l : Half} {k : Nat} (h : l.toNat + k * a.toNat ≤ 65535) (r : Half) :
    envAfter a r k (.attack, l) = (.attack, BitVec.ofNat 16 (l.toNat + k * a.toNat)) := by
  induction k with
  | zero => simp
  | succ k ih =>
    rw [Nat.succ_mul, ← Nat.add_assoc] at h ⊢
    have hk := toNat_ofNat_half (n := l.toNat + k * a.toNat) (by omega)
    rw [envAfter_succ, ih (by omega), envNext_attack_rises (by rwa [hk]), hk]

/-- The release falls by its rate at each sample while the difference is not negative (`42_envelope.md` R83). -/
theorem envAfter_release {r l : Half} {k : Nat} (h : k * r.toNat ≤ l.toNat) (a : Half) :
    envAfter a r k (.release, l) = (.release, BitVec.ofNat 16 (l.toNat - k * r.toNat)) := by
  induction k with
  | zero => simp
  | succ k ih =>
    rw [Nat.succ_mul] at h ⊢
    have hk := toNat_ofNat_half (n := l.toNat - k * r.toNat) (by omega)
    rw [envAfter_succ, ih (by omega), envNext_release_falls (by rw [hk]; omega), hk, Nat.sub_sub]

/-- `kA` of `42_envelope.md` R83: the sample that ends the attack. -/
theorem envAfter_attack_ends {a : Half} (ha : 1 ≤ a.toNat) (r l : Half) :
    envAfter a r ((65535 - l.toNat) / a.toNat + 1) (.attack, l) = (.release, 0xFFFF#16) := by
  have hfits := Nat.div_mul_le_self (65535 - l.toNat) a.toNat
  have hexceeds := Nat.lt_div_mul_add (a := 65535 - l.toNat) ha
  have hlast : l.toNat + (65535 - l.toNat) / a.toNat * a.toNat ≤ 65535 := by omega
  rw [envAfter_succ, envAfter_attack hlast]
  exact envNext_attack_ends (by rw [toNat_ofNat_half hlast]; omega) r

/-- `jR` of `42_envelope.md` R83: the sample that ends the release. -/
theorem envAfter_release_ends {r : Half} (hr : 1 ≤ r.toNat) (a l : Half) :
    envAfter a r (l.toNat / r.toNat + 1) (.release, l) = (.off, 0#16) := by
  have hexceeds := Nat.lt_div_mul_add (a := l.toNat) hr
  rw [envAfter_succ, envAfter_release (Nat.div_mul_le_self _ _)]
  exact envNext_release_ends (by rw [toNat_ofNat_half (by omega)]; omega) a

/-- An attack at rate 0 never moves (`42_envelope.md` R83, R84 (d)). -/
theorem envAfter_attack_zeroRate (r l : Half) (k : Nat) : envAfter 0#16 r k (.attack, l) = (.attack, l) := by
  have h := envAfter_attack (a := 0#16) (l := l) (k := k)
    (by simpa using Nat.le_of_lt_succ l.isLt) r
  simpa using h

/-! ## The rates -/

/-- A quotient of 65535 fits its 16 bits (`42_envelope.md` R80). -/
theorem rateOf_toNat (x : Word) : (rateOf x).toNat = 65535 / x.toNat := toNat_ofNat_half (Nat.div_le_self _ _)

/-- The level that the rate `65535 / time` reaches after `time` samples (`42_envelope.md` R83). -/
theorem fullAttack_level {time : Nat} (h1 : 1 ≤ time) (hmax : time ≤ 65535) :
    65535 - time < time * (65535 / time) ∧ time * (65535 / time) ≤ 65535 := by
  have hlower := Nat.lt_mul_div_succ 65535 h1
  rw [Nat.mul_succ] at hlower
  exact ⟨by omega, Nat.mul_div_le _ _⟩

/-- The attack of `time` samples does not end before sample `time + 1` (`42_envelope.md` R83). -/
theorem time_le_fullAttack {time : Nat} (h1 : 1 ≤ time) (hmax : time ≤ 65535) : time ≤ 65535 / (65535 / time) :=
  (Nat.le_div_iff_mul_le (Nat.div_pos hmax h1)).2 (Nat.mul_div_le _ _)

/-! ## The sample loop of `ENVRUN` -/

/-- State and level of the envelope `k` samples after `s`. -/
def envAt (s : State) (k : Nat) : EnvState × Half :=
  envAfter s.attackRate s.releaseRate k (s.envState, s.envLevel)

theorem envAt_succ (s : State) (k : Nat) :
    envAt s (k + 1) = envNext s.attackRate s.releaseRate (envAt s k).1 (envAt s k).2 := rfl

/-- The trigger forces the state with which the samples start, and nothing else (`42_envelope.md` R81). -/
theorem envAt_applyTrigger (trig : Bool) (s : State) (k : Nat) : envAt (applyTrigger trig s) k =
    envAfter s.attackRate s.releaseRate k (if trig then .attack else s.envState, s.envLevel) := by
  cases trig <;> rfl

/-- `GAIN` after `k` samples of `ENVRUN` from `s`: the levels below `k`, and from `k` on what stood there. -/
def envCell (s : State) (k i : Nat) : Option Word :=
  if i < k then some (zextElement s.cfg.width (envAt s (i + 1)).2) else cellAt s.gain i

theorem envCell_of_lt {k i : Nat} (h : i < k) (s : State) :
    envCell s k i = some (zextElement s.cfg.width (envAt s (i + 1)).2) := if_pos h

theorem envCell_of_le {k i : Nat} (h : k ≤ i) (s : State) : envCell s k i = cellAt s.gain i := if_neg h.not_gt

/-- What `k` samples of `ENVRUN` compute: the state and level after `k` samples, and the elements of `GAIN`. -/
theorem envLoop_values {k : Nat} {s u : State} (h : forSamples envSample k s = .next u) :
    (u.envState, u.envLevel) = envAt s k ∧ ∀ i, cellAt u.gain i = envCell s k i := by
  induction k generalizing u with
  | zero => cases h; exact ⟨rfl, fun i => (envCell_of_le (Nat.zero_le i) s).symm⟩
  | succ k ih =>
    obtain ⟨v, hv, hu⟩ := andThen_eq_next.1 h
    obtain ⟨hvalue, hcells⟩ := ih hv
    have hattack : v.attackRate = s.attackRate := by rw [envLoop_frame hv]
    have hrelease : v.releaseRate = s.releaseRate := by rw [envLoop_frame hv]
    have hcfg : v.cfg = s.cfg := by rw [envLoop_frame hv]
    have hnext : envNext v.attackRate v.releaseRate v.envState v.envLevel = envAt s (k + 1) := by
      rw [hattack, hrelease, envAt_succ, ← hvalue]
    rw [envSample_eq, hnext, hcfg] at hu
    cases hu
    refine ⟨rfl, fun i => ?_⟩
    rcases lt_trichotomy i k with hi | rfl | hi
    · rw [cellAt_setCell_ne _ _ hi.ne, hcells, envCell_of_lt hi, envCell_of_lt (hi.trans k.lt_succ_self)]
    · rw [cellAt_setCell_same, envCell_of_lt i.lt_succ_self]
    · rw [cellAt_setCell_ne _ _ hi.ne', hcells, envCell_of_le hi.le, envCell_of_le hi]

/-! ## The outcomes of the two commands -/

theorem exec_envcfg_zero {s : State} (h : s.halt = false) (hzero : s.arg0 = 0#32 ∨ s.arg1 = 0#32) :
    exec .envcfg s = .next (complete .eConfig s) :=
  execEnvcfg_eq_next.2 (.inr (.inl ⟨h, hzero, rfl⟩))

theorem exec_envcfg_nonzero {s : State} (h : s.halt = false) (h0 : s.arg0 ≠ 0#32) (h1 : s.arg1 ≠ 0#32) :
    exec .envcfg s = .next (complete .ok
      { s with attackRate := rateOf s.arg0, releaseRate := rateOf s.arg1, envCfg := true }) :=
  execEnvcfg_eq_next.2 (.inr (.inr ⟨h, not_or.2 ⟨h0, h1⟩, rfl⟩))

theorem exec_envrun_notConfigured {s : State} (h : s.halt = false) (hc : s.envCfg = false) (trig : Bool) :
    exec (.envrun trig) s = .next (complete .eState s) :=
  execEnvrun_eq_next.2 (.inr (.inl ⟨h, hc, rfl⟩))

/-- `ENVRUN` of a configured envelope: the state and level it leaves and every element of `GAIN`
(`42_envelope.md` R81). -/
theorem exec_envrun_configured {s : State} (h : s.halt = false) (hc : s.envCfg = true) (trig : Bool) :
    ∃ gain', exec (.envrun trig) s = .next { s with
        gain := gain'
        envState := (envAt (applyTrigger trig s) s.cfg.n).1
        envLevel := (envAt (applyTrigger trig s) s.cfg.n).2
        lastErr := .ok }
      ∧ ∀ i, cellAt gain' i = envCell (applyTrigger trig s) s.cfg.n i := by
  obtain ⟨u, hu⟩ := envLoop_runs s.cfg.n (applyTrigger trig s)
  obtain ⟨hvalue, hcells⟩ := envLoop_values hu
  refine ⟨u.gain, execEnvrun_eq_next.2 (.inr (.inr ⟨h, hc, u, hu, ?_⟩)), hcells⟩
  rw [envLoop_frame hu, ← hvalue]
  cases trig <;> rfl

end Machine

/-! ## The obligations -/

/-- Settles O27: a zero argument is refused before anything is written; both quotients fit the 16 bits of a rate. -/
theorem envcfgDividesBothTimes : Obligations.EnvcfgDividesBothTimes := by
  intro s
  exact ⟨fun hs => exec_halted hs .envcfg, exec_envcfg_zero, fun hs h0 h1 =>
    ⟨rateOf s.arg0, rateOf s.arg1, rateOf_toNat _, rateOf_toNat _, exec_envcfg_nonzero hs h0 h1⟩⟩

/-- Settles O29: each transition by its comparison; a sum that is kept fits 16 bits, and so does a difference. -/
theorem envelopeTransitionsAreComplete : Obligations.EnvelopeTransitionsAreComplete := by
  refine ⟨fun s => ⟨rfl, rfl⟩, fun a r l => ⟨fun h => envNext_attack_ends h r, fun h => ?_,
    fun h => envNext_release_ends h a, fun h => ?_, rfl⟩⟩
  · exact ⟨_, toNat_ofNat_half h, envNext_attack_rises h r⟩
  · exact ⟨_, toNat_ofNat_half (by omega), envNext_release_falls h a⟩

/-- Settles O30: the two tests of `ENVRUN`, then the sample loop from the state that the trigger leaves. -/
theorem envrunFillsTheGainBuffer : Obligations.EnvrunFillsTheGainBuffer := by
  intro trig s start
  refine ⟨fun hs => exec_halted hs _, fun hs hc => exec_envrun_notConfigured hs hc trig, fun hs hc => ?_⟩
  obtain ⟨gain', hexec, hcells⟩ := exec_envrun_configured hs hc trig
  rw [envAt_applyTrigger] at hexec
  refine ⟨gain', hexec, fun n hn => ?_, fun n hn => ?_⟩
  · rw [hcells, envCell_of_lt hn, envAt_applyTrigger, applyTrigger_cfg]
  · rw [hcells, envCell_of_le hn, applyTrigger_gain]

/-- Settles O31: both closed forms by induction over the samples; the sample after the last one that fits ends the
phase. -/
theorem envelopeHasItsClosedForms : Obligations.EnvelopeHasItsClosedForms := by
  refine ⟨fun a r l0 k h => envAfter_attack h r, fun a r l0 ha => envAfter_attack_ends ha r l0,
    fun a r l1 k h => envAfter_release h a, fun a r l1 hr => envAfter_release_ends hr a l1,
    envAfter_attack_zeroRate, fun s hs => ?_, fun a r l => ⟨le_envNext_attack a r l, envNext_release_le a r l⟩,
    fun time r h1 hmax => ?_,
    fun time h1 hmax =>
      ⟨fullAttack_level h1 hmax, Nat.mul_div_eq_iff_dvd, Nat.succ_le_succ (time_le_fullAttack h1 hmax)⟩⟩
  · rw [applyTrigger, if_pos rfl, ← hs]
  · have hrate := toNat_ofNat_half (Nat.div_le_self 65535 time)
    obtain ⟨-, hfits⟩ := fullAttack_level h1 hmax
    have hlevel := envAfter_attack (a := BitVec.ofNat 16 (65535 / time)) (l := 0#16) (k := time)
      (by simpa [hrate] using hfits) r
    simpa [hrate] using hlevel

end Sys2Proof
end

section
/-!
The amplifier, `43_amplifier.md` R85 to R89: the bounds of the function `amplify`, what the sample loop of `AMPRUN`
leaves in `OUT` and when it faults, the gains that `ENVRUN` writes, and the construction-time check.
-/

namespace Sys2Proof

open Machine Safety

/-! ## The construction-time check -/

theorem widthOfBits_eq_some {bits : Nat} {w : Width} : widthOfBits bits = some w ↔ bits = widthBits w := by
  unfold widthOfBits
  split
  · next h => subst h; cases w <;> simp [widthBits]
  · split
    · next h => subst h; cases w <;> simp [widthBits]
    · cases w <;> simp_all [widthBits]

theorem buildInstance_lengths_differ {r : RawParams} (h : ¬ (r.lenSig = r.lenGain ∧ r.lenGain = r.lenOut)) :
    buildInstance r = .rejected .eLength := if_pos h

theorem buildInstance_widths_differ {r : RawParams}
    (h : ¬ (r.widthSig = r.widthGain ∧ r.widthGain = r.widthOut)) : buildInstance r = .rejected .eLength := by
  rw [buildInstance, if_pos h, ite_self]

/-- With equal lengths and equal widths the check builds exactly if both values are legal. -/
theorem buildInstance_agreeing {r : RawParams} {p : Params} (hlen : r.lenSig = r.lenGain ∧ r.lenGain = r.lenOut)
    (hwidth : r.widthSig = r.widthGain ∧ r.widthGain = r.widthOut) : buildInstance r = .built p ↔
      r.lenSig = p.n ∧ r.widthSig = widthBits p.width ∧ r.mode = p.mode ∧ p.Legal := by
  obtain ⟨n, w, mode⟩ := p
  rw [buildInstance, if_neg (not_not.2 hlen), if_neg (not_not.2 hwidth), ← widthOfBits_eq_some]
  cases widthOfBits r.widthSig with
  | none => simp
  | some v =>
    simp only [ite_eq_iff, BuildResult.built.injEq, Params.mk.injEq, Option.some.injEq, reduceCtorEq, and_false,
      or_false]
    constructor
    · rintro ⟨hlegal, rfl, rfl, rfl⟩
      exact ⟨rfl, rfl, rfl, hlegal⟩
    · rintro ⟨rfl, rfl, rfl, hlegal⟩
      exact ⟨hlegal, rfl, rfl, rfl⟩

namespace Machine

/-! ## The codes of the commands -/

/-- The codes with which a command can complete (`60_exceptions.md` R101). -/
def codesOf : Instr → List Code
  | .tblload => [.ok, .eResource, .eState, .eHalted]
  | .dcoinit => [.ok, .eHalted]
  | .dcorun _ => [.ok, .eState, .eHalted]
  | .envcfg => [.ok, .eConfig, .eHalted]
  | .envrun _ => [.ok, .eState, .eHalted]
  | .amprun => [.ok, .eHalted]

theorem exec_lastErr_mem {i : Instr} {s t : State} (h : exec i s = .next t) : t.lastErr ∈ codesOf i := by
  cases i with
  | tblload =>
    rcases execTblload_eq_next.1 h with ⟨-, rfl⟩ | ⟨-, -, rfl⟩ | ⟨-, -, -, rfl⟩ | ⟨-, -, -, u, -, rfl⟩ <;>
      simp [codesOf]
  | dcoinit => rcases execDcoinit_eq_next.1 h with ⟨-, rfl⟩ | ⟨-, rfl⟩ <;> simp [codesOf]
  | dcorun fcw =>
    rcases execDcorun_eq_next.1 h with ⟨-, rfl⟩ | ⟨-, -, rfl⟩ | ⟨-, -, u, -, rfl⟩ <;> simp [codesOf]
  | envcfg => rcases execEnvcfg_eq_next.1 h with ⟨-, rfl⟩ | ⟨-, -, rfl⟩ | ⟨-, -, rfl⟩ <;> simp [codesOf]
  | envrun trig =>
    rcases execEnvrun_eq_next.1 h with ⟨-, rfl⟩ | ⟨-, -, rfl⟩ | ⟨-, -, u, -, rfl⟩ <;> simp [codesOf]
  | amprun => rcases execAmprun_eq_next.1 h with ⟨-, rfl⟩ | ⟨-, u, -, rfl⟩ <;> simp [codesOf]

theorem eLength_notMem_codesOf (i : Instr) : Code.eLength ∉ codesOf i := by
  cases i <;> simp [codesOf]

/-! ## Elements as numbers -/

theorem signedElement_range (w : Width) (v : Word) :
    -2 ^ (widthBits w - 1) ≤ signedElement w v ∧ signedElement w v ≤ 2 ^ (widthBits w - 1) - 1 := by
  cases w with
  | w16 => exact ⟨(v.setWidth 16).le_toInt, Int.le_sub_one_of_lt (v.setWidth 16).toInt_lt⟩
  | w32 => exact ⟨v.le_toInt, Int.le_sub_one_of_lt v.toInt_lt⟩

/-- Truncation to `W` bits keeps a value that fits them (`00_scope.md` R5). -/
theorem signedElement_elementOfInt {w : Width} {i : Int} (hlow : -2 ^ (widthBits w - 1) ≤ i)
    (hhigh : i ≤ 2 ^ (widthBits w - 1) - 1) : signedElement w (elementOfInt w i) = i := by
  have hfits := Int.lt_of_le_sub_one hhigh
  cases w with
  | w16 => simpa [signedElement, elementOfInt, widthBits] using BitVec.toInt_ofInt_eq_self (by decide) hlow hfits
  | w32 => exact BitVec.toInt_ofInt_eq_self (by decide) hlow hfits

theorem unsignedElement_w16_le (v : Word) : unsignedElement .w16 v ≤ 0xFFFF :=
  Nat.le_of_lt_succ (v.setWidth 16).isLt

/-- Storing a level discards nothing, in both widths (`20_memory.md` R45). -/
theorem unsignedElement_zextElement (w : Width) (v : Half) : unsignedElement w (zextElement w v) = v.toNat := by
  cases w with
  | w16 => simp [unsignedElement, zextElement, elementOfInt]
  | w32 =>
    simp only [unsignedElement, zextElement, elementOfInt, BitVec.ofInt_natCast, BitVec.toNat_ofNat]
    omega

/-! ## The function `amplify` -/

/-- The exact product lies between those of the sample's bounds with the largest gain (`43_amplifier.md` R86). -/
theorem product_range (w : Width) (v : Word) {g : Nat} (hg : g ≤ 0xFFFF) :
    -2 ^ (widthBits w - 1) * 65535 ≤ signedElement w v * g
      ∧ signedElement w v * g ≤ (2 ^ (widthBits w - 1) - 1) * 65535 := by
  obtain ⟨hlow, hhigh⟩ := signedElement_range w v
  have hpos : (0 : Int) < 2 ^ (widthBits w - 1) := by positivity
  have hg' : (g : Int) ≤ 65535 := by exact_mod_cast hg
  have hg0 : (0 : Int) ≤ g := Int.natCast_nonneg g
  constructor
  · calc (-2 ^ (widthBits w - 1) * 65535 : Int)
      _ ≤ -2 ^ (widthBits w - 1) * g := mul_le_mul_of_nonpos_left hg' (by omega)
      _ ≤ signedElement w v * g := mul_le_mul_of_nonneg_right hlow hg0
  · calc signedElement w v * g ≤ (2 ^ (widthBits w - 1) - 1) * g := mul_le_mul_of_nonneg_right hhigh hg0
      _ ≤ (2 ^ (widthBits w - 1) - 1) * 65535 := mul_le_mul_of_nonneg_left hg' (by omega)

/-- `W + 16` bits are enough for the exact product (`43_amplifier.md` R86). -/
theorem product_fits (w : Width) (v : Word) {g : Nat} (hg : g ≤ 0xFFFF) :
    -2 ^ (widthBits w + 15) ≤ signedElement w v * g ∧ signedElement w v * g < 2 ^ (widthBits w + 15) := by
  obtain ⟨hlow, hhigh⟩ := product_range w v hg
  cases w with
  | w16 | w32 => simp only [widthBits] at *; omega

theorem amplify_mono {x : Int} (hx : 0 ≤ x) {g g' : Nat} (h : g ≤ g') : amplify x g ≤ amplify x g' :=
  Int.ediv_le_ediv (by decide) (mul_le_mul_of_nonneg_left (Int.ofNat_le.2 h) hx)

theorem amplify_anti {x : Int} (hx : x ≤ 0) {g g' : Nat} (h : g ≤ g') : amplify x g' ≤ amplify x g :=
  Int.ediv_le_ediv (by decide) (mul_le_mul_of_nonpos_left (Int.ofNat_le.2 h) hx)

theorem amplify_zero_gain (x : Int) : amplify x 0 = 0 := by simp [amplify]

/-- The largest gain falls short of a unit factor by `ceil(x / 65536)` (`43_amplifier.md` R87). -/
theorem amplify_largest_gain (x : Int) : amplify x 0xFFFF = x - (x + 65535) / 65536 := by
  simp only [amplify, Config.gainShift]
  omega

/-- A negative or zero input rises toward 0 (`43_amplifier.md` R86). -/
theorem amplify_nonpos_range {x : Int} (hx : x ≤ 0) {g : Nat} (hg : g ≤ 0xFFFF) :
    x ≤ amplify x g ∧ amplify x g ≤ 0 := by
  have hlow := amplify_anti hx hg
  have hhigh := amplify_anti hx g.zero_le
  rw [amplify_largest_gain] at hlow
  rw [amplify_zero_gain] at hhigh
  omega

/-- A positive or zero input falls toward 0 (`43_amplifier.md` R86). -/
theorem amplify_nonneg_range {x : Int} (hx : 0 ≤ x) {g : Nat} (hg : g ≤ 0xFFFF) :
    0 ≤ amplify x g ∧ amplify x g ≤ x - (x + 65535) / 65536 := by
  have hlow := amplify_mono hx g.zero_le
  have hhigh := amplify_mono hx hg
  rw [amplify_zero_gain] at hlow
  rw [amplify_largest_gain] at hhigh
  exact ⟨hlow, hhigh⟩

/-- The output is no larger in magnitude than the input (`43_amplifier.md` R86). -/
theorem abs_amplify_le (x : Int) {g : Nat} (hg : g ≤ 0xFFFF) : |amplify x g| ≤ |x| := by
  rcases le_total 0 x with hx | hx
  · have := amplify_nonneg_range hx hg
    rw [abs_of_nonneg this.1, abs_of_nonneg hx]
    omega
  · have := amplify_nonpos_range hx hg
    rw [abs_of_nonpos this.2, abs_of_nonpos hx]
    omega

/-- An output fits the `W` bits of its input: the truncation discards nothing (`43_amplifier.md` R86). -/
theorem signedElement_amplify (w : Width) (v : Word) {g : Nat} (hg : g ≤ 0xFFFF) :
    signedElement w (elementOfInt w (amplify (signedElement w v) g)) = amplify (signedElement w v) g := by
  obtain ⟨hlow, hhigh⟩ := signedElement_range w v
  have hpos : (0 : Int) < 2 ^ (widthBits w - 1) := by positivity
  rcases le_total 0 (signedElement w v) with hx | hx
  · have := amplify_nonneg_range hx hg
    exact signedElement_elementOfInt (by omega) (by omega)
  · have := amplify_nonpos_range hx hg
    exact signedElement_elementOfInt (by omega) (by omega)

/-! ## The sample loop of `AMPRUN` -/

/-- Element `n` of `s` has a product: both factors are written and the gain is in range (`43_amplifier.md` R85, R89). -/
def HasProduct (s : State) (n : Nat) : Prop := ∃ x g, cellAt s.sig n = some x ∧ cellAt s.gain n = some g
  ∧ unsignedElement s.cfg.width g ≤ Config.levelMax

theorem hasProduct_of_full {s : State} {n : Nat} (hn : n < s.cfg.n) (hsig : BufferFull s.cfg.n s.sig)
    (hgain : BufferFull s.cfg.n s.gain) (hrange : GainsInRange s) : HasProduct s n := by
  obtain ⟨x, hx⟩ := Option.isSome_iff_exists.1 (hsig n hn)
  obtain ⟨g, hg⟩ := Option.isSome_iff_exists.1 (hgain n hn)
  exact ⟨x, g, hx, hg, hrange n g hn hg⟩

/-- A sample with a product goes on and changes `OUT` alone. -/
theorem ampSample_runs {s v : State} (hv : v = { s with out := v.out }) {n : Nat} (h : HasProduct s n) :
    ∃ v', ampSample n v = .next v' ∧ v' = { s with out := v'.out } := by
  obtain ⟨x, g, hx, hg, hr⟩ := h
  rw [hv]
  exact ⟨_, ampSample_eq_next.2 ⟨x, g, hx, hg, hr, rfl⟩, rfl⟩

/-- An element that nothing has written faults (`93_implementation_defined.md` U3). -/
theorem ampSample_unwritten {s : State} {n : Nat} (h : cellAt s.sig n = none ∨ cellAt s.gain n = none) :
    ampSample n s = .fault .unwrittenElement := by
  unfold ampSample
  rcases h with hx | hg
  · rw [hx, withValue_none]
  · cases cellAt s.sig n with
    | none => rfl
    | some x => rw [withValue_some, hg, withValue_none]

/-- A gain above its range faults (`43_amplifier.md` R89). -/
theorem ampSample_aboveRange {s : State} {n : Nat} {x g : Word} (hx : cellAt s.sig n = some x)
    (hg : cellAt s.gain n = some g) (hr : Config.levelMax < unsignedElement s.cfg.width g) :
    ampSample n s = .fault .gainAboveRange := by
  rw [ampSample, hx, withValue_some, hg, withValue_some, if_pos hr]

/-- The loop runs to its end if every element has a product. -/
theorem ampLoop_runs {s : State} {k : Nat} (h : ∀ n, n < k → HasProduct s n) :
    ∃ u, forSamples ampSample k s = .next u := by
  obtain ⟨u, hu, -⟩ := forSamples_runs (body := ampSample) (s := s) (fun _ v => v = { s with out := v.out }) rfl
    fun n v hn hv => ampSample_runs hv (h n hn)
  exact ⟨u, hu⟩

/-- If some element has no product and each such element gives the fault `e`, whatever `OUT` holds, then `AMPRUN`
faults with `e`. -/
theorem exec_amprun_faults {s : State} {e : Fault} {n : Nat} (hs : s.halt = false) (hn : n < s.cfg.n)
    (hbad : ¬ HasProduct s n)
    (hfault : ∀ k m, k < s.cfg.n → ¬ HasProduct s k → ampSample k { s with out := m } = .fault e) :
    exec .amprun s = .fault e := by
  have hloop : forSamples ampSample s.cfg.n s = .fault e :=
    forSamples_first_fault (HasProduct s) (fun _ v => v = { s with out := v.out }) rfl
      (fun k v _ hv hk => ampSample_runs hv hk) (fun k v hkn hv hk => hv ▸ hfault k v.out hkn hk) ⟨n, hbad, hn⟩
  change execAmprun s = _
  rw [execAmprun, unlessHalted_running hs, hloop, andThen_fault]

/-- After `k` samples `OUT` holds the products below `k`, and from `k` on what it held before. -/
theorem ampLoop_cellAt {k : Nat} {s u : State} (h : forSamples ampSample k s = .next u) :
    (∀ n x g, n < k → cellAt s.sig n = some x → cellAt s.gain n = some g →
        cellAt u.out n = some (ampElement s.cfg.width x g))
      ∧ ∀ n, k ≤ n → cellAt u.out n = cellAt s.out n := by
  induction k generalizing u with
  | zero => cases h; exact ⟨fun n x g hn => absurd hn n.not_lt_zero, fun n _ => rfl⟩
  | succ k ih =>
    obtain ⟨v, hv, hu⟩ := andThen_eq_next.1 h
    obtain ⟨hbelow, hfrom⟩ := ih hv
    rw [ampLoop_frame hv] at hu
    obtain ⟨y, b, hy, hb, -, rfl⟩ := ampSample_eq_next.1 hu
    refine ⟨fun n x g hn hx hg => ?_, fun n hn => ?_⟩
    · rcases Nat.lt_succ_iff_lt_or_eq.1 hn with hlt | rfl
      · exact (cellAt_setCell_ne _ _ hlt.ne).trans (hbelow n x g hlt hx hg)
      · cases hx.symm.trans hy
        cases hg.symm.trans hb
        exact cellAt_setCell_same _ _ _
    · exact (cellAt_setCell_ne _ _ (by omega)).trans (hfrom n (by omega))

/-! ## The gains that `ENVRUN` writes -/

/-- After `ENVRUN` has completed with `OK` every gain is in range (`43_amplifier.md` R89). -/
theorem gainsInRange_of_envrun {trig : Bool} {s t : State} (h : exec (.envrun trig) s = .next t)
    (hok : t.lastErr = .ok) : GainsInRange t := by
  rcases execEnvrun_eq_next.1 h with ⟨-, rfl⟩ | ⟨-, -, rfl⟩ | ⟨-, -, u, hu, rfl⟩
  · cases hok
  · cases hok
  · have hcfg : u.cfg = s.cfg := by rw [envLoop_frame hu, applyTrigger_cfg]
    obtain ⟨-, hcells⟩ := envLoop_values hu
    intro k g hk hg
    rw [complete_cfg, hcfg] at hk ⊢
    rw [complete_gain, hcells, envCell_of_lt hk, applyTrigger_cfg, Option.some.injEq] at hg
    rw [← hg, unsignedElement_zextElement]
    exact Nat.le_of_lt_succ (BitVec.isLt _)

end Machine

/-! ## The obligations -/

/-- Settles O34: the loop runs because every element has a product, and each product fits its element; with every gain
in range the only element without a product is an unwritten one. -/
theorem amprunMultipliesElementwise : Obligations.AmprunMultipliesElementwise := by
  refine fun s => ⟨fun hs => exec_halted hs _, fun hs hsig hgain hrange => ?_, fun n hs hrange hn hnone => ?_⟩
  · obtain ⟨u, hu⟩ := ampLoop_runs fun n hn => hasProduct_of_full hn hsig hgain hrange
    obtain ⟨hbelow, hfrom⟩ := ampLoop_cellAt hu
    refine ⟨u.out, execAmprun_eq_next.2 (.inr ⟨hs, u, hu, ?_⟩), fun n x g hn hx hg => ?_, hfrom⟩
    · rw [ampLoop_frame hu, complete]
    · exact ⟨_, hbelow n x g hn hx hg, signedElement_amplify _ _ (hrange n g hn hg), elementBits_elementOfInt _ _⟩
  · refine exec_amprun_faults hs hn (fun ⟨x, g, hx, hg, _⟩ => by simp [hx, hg] at hnone) fun k m hk hbad => ?_
    refine ampSample_unwritten (or_iff_not_and_not.2 fun ⟨hx, hg⟩ => hbad ?_)
    obtain ⟨x, hx⟩ := Option.ne_none_iff_exists'.1 hx
    obtain ⟨g, hg⟩ := Option.ne_none_iff_exists'.1 hg
    exact ⟨x, g, hx, hg, hrange k g hk hg⟩

/-- Settles O35: the bounds of the product from those of the sample, the bounds of the output from monotonicity in the
gain. -/
theorem amplifierNeverOverflows : Obligations.AmplifierNeverOverflows := by
  intro w v g hg x
  refine ⟨signedElement_range w v, product_range w v hg, product_fits w v hg,
    fun hx => amplify_nonpos_range hx hg, fun hx => ?_, fun hx => ?_, abs_amplify_le x hg,
    signedElement_amplify w v hg⟩
  · have := amplify_nonneg_range hx hg
    omega
  · have := amplify_nonneg_range (by omega : 0 ≤ x) hg
    omega

/-- Settles O36: the closed form at the largest gain is exact for both signs; the floor is monotonic. -/
theorem amplifierGainLaws : Obligations.AmplifierGainLaws := by
  refine ⟨amplify_zero_gain, fun x _ => amplify_largest_gain x, fun x _ => ?_, fun x hlow hhigh => ?_,
    fun x hlow hhigh => ?_, fun x g g' hx h => amplify_mono hx h, fun x g g' hx h => amplify_anti hx.le h⟩ <;>
  · rw [amplify_largest_gain]
    omega

/-- Settles O37: `ENVRUN` stores 16-bit levels; with both buffers written the only element without a product is one
whose gain is above the range. -/
theorem gainAboveRangeFaults : Obligations.GainAboveRangeFaults := by
  refine ⟨unsignedElement_w16_le, fun b s t => gainsInRange_of_envrun, fun s n g hs hw hsig hgain hn hg hr => ?_⟩
  refine exec_amprun_faults hs hn (fun ⟨x, g', _, hg', hle⟩ => ?_) fun k m hk hbad => ?_
  · rw [hw] at hle
    cases hg.symm.trans hg'
    exact hr.not_ge hle
  · obtain ⟨x, hx⟩ := Option.isSome_iff_exists.1 (hsig k hk)
    obtain ⟨y, hy⟩ := Option.isSome_iff_exists.1 (hgain k hk)
    exact ampSample_aboveRange hx hy (Nat.lt_of_not_ge fun hle => hbad ⟨x, y, hx, hy, hle⟩)

/-- Settles O38: the two comparisons of the check come first; no command has `E_LENGTH` among its codes. -/
theorem mismatchedInstancesAreRejected : Obligations.MismatchedInstancesAreRejected := by
  refine ⟨fun r => buildInstance_lengths_differ, fun r => buildInstance_widths_differ, fun r p => ?_,
    fun i s t h hcode => eLength_notMem_codesOf i (hcode ▸ exec_lastErr_mem h)⟩
  by_cases hlen : r.lenSig = r.lenGain ∧ r.lenGain = r.lenOut
  · by_cases hwidth : r.widthSig = r.widthGain ∧ r.widthGain = r.widthOut
    · rw [buildInstance_agreeing hlen hwidth, ← hlen.2, ← hlen.1, ← hwidth.2, ← hwidth.1]
      tauto
    · rw [buildInstance_widths_differ hwidth]
      refine ⟨nofun, fun ⟨_, _, _, hsig, hgain, hout, _⟩ => absurd ⟨?_, ?_⟩ hwidth⟩
      · rw [hsig, hgain]
      · rw [hgain, hout]
  · rw [buildInstance_lengths_differ hlen]
    refine ⟨nofun, fun ⟨hsig, hgain, hout, _⟩ => absurd ⟨?_, ?_⟩ hlen⟩
    · rw [hsig, hgain]
    · rw [hgain, hout]

end Sys2Proof
end

section
/-!
The interpolator, `44_interpolator.md` R90 to R93: the numerator's remainder, quotient and bounds, and what each
rounding mode makes of a fraction below, at and above one half.
-/

namespace Sys2Proof

open Machine

namespace Machine

/-! ## The numerator -/

theorem interpNum_emod (v0 v1 : Int) (w : Nat) : interpNum v0 v1 w % 256 = (v1 - v0) * w % 256 :=
  Int.mul_add_emod_self_left _ _ _

theorem interpNum_ediv (v0 v1 : Int) (w : Nat) : interpNum v0 v1 w / 256 = v0 + (v1 - v0) * w / 256 :=
  Int.mul_add_ediv_left _ _ (by decide)

theorem interpNum_neg (v0 v1 : Int) (w : Nat) : interpNum (-v0) (-v1) w = -interpNum v0 v1 w := by
  rw [interpNum, interpNum]
  ring

/-- A lower bound of both values bounds the numerator, as it bounds its floor (`44_interpolator.md` R90). -/
theorem le_interpNum {m v0 v1 : Int} {w : Nat} (hw : w ≤ 256) (h0 : m ≤ v0) (h1 : m ≤ v1) :
    256 * m ≤ interpNum v0 v1 w := by
  have hfloor : m ≤ interpNum v0 v1 w / 256 := le_interp .floor hw h0 h1
  omega

/-- An upper bound of both values bounds the numerator: the lower bound for the negated values
(`44_interpolator.md` R90). -/
theorem interpNum_le {m v0 v1 : Int} {w : Nat} (hw : w ≤ 256) (h0 : v0 ≤ m) (h1 : v1 ≤ m) :
    interpNum v0 v1 w ≤ 256 * m := by
  have hneg := le_interpNum hw (neg_le_neg h0) (neg_le_neg h1)
  rw [interpNum_neg] at hneg
  omega

/-! ## Rounding below, above and at one half -/

theorem roundDiv256_of_rem_lt {num : Int} (h : num % 256 < 128) (mode : InterpMode) :
    roundDiv256 mode num = num / 256 := by
  cases mode with
  | floor => rfl
  | halfUp | halfEven | halfAway => exact if_neg (by omega)

theorem roundDiv256_of_lt_rem {num : Int} (h : 128 < num % 256) {mode : InterpMode} (hmode : mode ≠ .floor) :
    roundDiv256 mode num = num / 256 + 1 := by
  cases mode with
  | floor => exact absurd rfl hmode
  | halfUp | halfEven | halfAway => exact if_pos (by omega)

/-- Off ties every mode but `FLOOR` gives the nearest integer (`44_interpolator.md` R91). -/
theorem roundDiv256_off_ties {num : Int} (h : num % 256 ≠ 128) {mode : InterpMode} (hmode : mode ≠ .floor) :
    roundDiv256 mode num = (num + 128) / 256 := by
  rcases lt_or_gt_of_ne h with hbelow | habove
  · rw [roundDiv256_of_rem_lt hbelow]
    omega
  · rw [roundDiv256_of_lt_rem habove hmode]
    omega

theorem roundDiv256_halfUp (num : Int) : roundDiv256 .halfUp num = (num + 128) / 256 := by
  by_cases h : num % 256 = 128
  · have htie : roundDiv256 .halfUp num = num / 256 + 1 := if_pos h.ge
    omega
  · exact roundDiv256_off_ties h (by decide)

theorem roundDiv256_halfEven_tie {num : Int} (h : num % 256 = 128) : roundDiv256 .halfEven num % 2 = 0 := by
  by_cases hodd : num / 256 % 2 = 1
  · have hup : roundDiv256 .halfEven num = num / 256 + 1 := if_pos (.inr ⟨h, hodd⟩)
    omega
  · have hdown : roundDiv256 .halfEven num = num / 256 := if_neg (by omega)
    omega

theorem roundDiv256_halfAway_tie_pos {num : Int} (h : num % 256 = 128) (hpos : 0 < num) :
    roundDiv256 .halfAway num = num / 256 + 1 := if_pos (.inr ⟨h, hpos⟩)

theorem roundDiv256_halfAway_tie_neg {num : Int} (h : num % 256 = 128) (hneg : num < 0) :
    roundDiv256 .halfAway num = num / 256 := if_neg (by omega)

/-- Every mode but `FLOOR` is within one half of the exact value; at a tie both neighbours are
(`44_interpolator.md` R91). -/
theorem abs_roundDiv256_sub_le (num : Int) {mode : InterpMode} (hmode : mode ≠ .floor) :
    |256 * roundDiv256 mode num - num| ≤ 128 := by
  rw [abs_le]
  by_cases h : num % 256 = 128
  · rcases roundDiv256_cases mode num with hr | ⟨hr, -⟩ <;> omega
  · have hr := roundDiv256_off_ties h hmode
    omega

/-! ## The interpolation where the modes agree -/

theorem interp_of_rem_lt {v0 v1 : Int} {w : Nat} (h : interpNum v0 v1 w % 256 < 128) (mode : InterpMode) :
    interp mode v0 v1 w = v0 + (v1 - v0) * w / 256 :=
  (roundDiv256_of_rem_lt h mode).trans (interpNum_ediv v0 v1 w)

/-- Without a fraction every mode gives the exact value (`44_interpolator.md` R92). -/
theorem interp_exact {v0 v1 : Int} {w : Nat} (h : (v1 - v0) * w % 256 = 0) (mode : InterpMode) :
    interp mode v0 v1 w = v0 + (v1 - v0) * w / 256 :=
  interp_of_rem_lt (by rw [interpNum_emod, h]; decide) mode

end Machine

/-! ## The obligations -/

/-- Settles O26: the smaller and the larger entry bound both entries, hence the interpolation. -/
theorem interpolationNeverOvershoots : Obligations.InterpolationNeverOvershoots := by
  intro mode v0 v1 w hw
  have hw' : w ≤ 256 := by omega
  exact ⟨le_interp mode hw' (min_le_left _ _) (min_le_right _ _),
    interp_le mode hw' (le_max_left _ _) (le_max_right _ _)⟩

/-- Settles O23: the product's range from its factors', the numerator's from the bounds it shares with the entries. -/
theorem interpolatorWidthsAreExact : Obligations.InterpolatorWidthsAreExact := by
  intro mode v0 v1 w hlow0 hhigh0 hlow1 hhigh1 hw
  have hw' : w ≤ 256 := by omega
  have hdiff : |v1 - v0| ≤ 65535 := abs_le.2 (by omega)
  have hprod : |(v1 - v0) * w| ≤ 65535 * 255 := by
    rw [abs_mul, Nat.abs_cast]
    exact mul_le_mul hdiff (by omega) (by omega) (by decide)
  exact ⟨abs_le.1 hdiff, abs_le.1 hprod, rfl, ⟨le_interpNum hw' hlow0 hlow1, interpNum_le hw' hhigh0 hhigh1⟩,
    ⟨le_interpNum hw' (min_le_left _ _) (min_le_right _ _), interpNum_le hw' (le_max_left _ _) (le_max_right _ _)⟩,
    rfl, interpolationNeverOvershoots mode v0 v1 w hw, le_interp mode hw' hlow0 hlow1,
    interp_le mode hw' hhigh0 hhigh1⟩

/-- Settles O24: the fraction is below, at or above one half, and a mode has its own rule only at one half. -/
theorem roundingModesAreTheFour : Obligations.RoundingModesAreTheFour := by
  refine ⟨by decide, fun num => ⟨roundDiv256_halfUp num, rfl, fun h => ?_,
    fun h => ⟨roundDiv256_halfEven_tie h, roundDiv256_halfAway_tie_pos h, roundDiv256_halfAway_tie_neg h⟩,
    fun mode => abs_roundDiv256_sub_le num, fun mode h => roundDiv256_of_rem_lt h mode,
    fun mode hmode h => roundDiv256_of_lt_rem h hmode⟩⟩
  constructor <;> rw [roundDiv256_off_ties h (by decide), roundDiv256_halfUp]

/-- Settles O25: `256 v0` adds nothing to the remainder, so the product alone decides where the modes agree. -/
theorem roundingModesAgreeOffTies : Obligations.RoundingModesAgreeOffTies := by
  refine ⟨interp_weight_zero, fun mode v w => ?_, fun mode v0 v1 w h => interp_exact h mode,
    fun mode mode' v0 v1 w h => (interp_of_rem_lt h mode).trans (interp_of_rem_lt h mode').symm,
    fun v0 v1 w => by rw [interpNum_emod], fun v0 v1 hodd => ?_, by decide, by decide,
    interp_exact (by decide)⟩
  · rw [interp_exact (by simp), sub_self, zero_mul, Int.zero_ediv, add_zero]
  · rw [interpNum_emod]
    omega

end Sys2Proof
end

section
/-!
The priority of the completion codes, `60_exceptions.md` R103: the checks of each command, and that a running block
completes with `OK` once they pass.
-/

namespace Sys2Proof

open Machine

namespace Machine

/-! ## The checks of the commands -/

theorem resourceAccepted_eq_false_iff {d : Word} :
    resourceAccepted d = false ↔ d.getLsbD 31 = false ∨ (d.extractLsb' 0 31).toNat ≠ 512 := by
  rw [← Bool.not_eq_true, resourceAccepted_iff, not_and_or, Bool.not_eq_true]

/-- The checks of a command on a running block pass: its readiness condition, then its operands
(`60_exceptions.md` R103). -/
def ChecksPass (s : State) : Instr → Prop
  | .tblload => s.tblValid = false ∧ resourceAccepted s.resDesc = true
  | .dcorun _ => s.tblValid = true
  | .envcfg => s.arg0 ≠ 0#32 ∧ s.arg1 ≠ 0#32
  | .envrun _ => s.envCfg = true
  | .dcoinit | .amprun => True

/-- Of the outcomes a command's inversion lemma lists, a running block leaves out the halted one. -/
theorem outcome_of_running {s : State} (hs : s.halt = false) {p q : Prop} (h : (s.halt = true ∧ p) ∨ q) : q :=
  h.resolve_left fun hhalted => Bool.eq_false_iff.1 hs hhalted.1

/-- A passed check leaves out the outcome of its failure, so that the one with `OK` remains. -/
theorem exec_ok_of_checksPass {i : Instr} {s t : State} (hs : s.halt = false) (hi : ChecksPass s i)
    (h : exec i s = .next t) : t.lastErr = .ok := by
  cases i with
  | tblload =>
    obtain ⟨hvalid, hres⟩ := hi
    obtain ⟨-, hvalid', -⟩ | ⟨-, -, hres', -⟩ | ⟨-, -, -, u, -, rfl⟩ := outcome_of_running hs (execTblload_eq_next.1 h)
    · cases hvalid.symm.trans hvalid'
    · cases hres.symm.trans hres'
    · rfl
  | dcoinit =>
    obtain ⟨-, rfl⟩ := outcome_of_running hs (execDcoinit_eq_next.1 h)
    rfl
  | dcorun fcw =>
    obtain ⟨-, hvalid, -⟩ | ⟨-, -, u, -, rfl⟩ := outcome_of_running hs (execDcorun_eq_next.1 h)
    · cases hvalid.symm.trans hi
    · rfl
  | envcfg =>
    obtain ⟨-, hzero, -⟩ | ⟨-, -, rfl⟩ := outcome_of_running hs (execEnvcfg_eq_next.1 h)
    · exact absurd hzero (not_or.2 hi)
    · rfl
  | envrun trig =>
    obtain ⟨-, hcfg, -⟩ | ⟨-, -, u, -, rfl⟩ := outcome_of_running hs (execEnvrun_eq_next.1 h)
    · cases hcfg.symm.trans hi
    · rfl
  | amprun =>
    obtain ⟨-, u, -, rfl⟩ := outcome_of_running hs (execAmprun_eq_next.1 h)
    rfl

end Machine

/-! ## The obligations -/

/-- Settles O8: each failing check by its command's outcome; with no check left to fail, the completion is `OK`. -/
theorem codesHaveTheirPriority : Obligations.CodesHaveTheirPriority := by
  refine ⟨fun s c hs => issueCommand_halted hs c,
    fun s c r hs hc => (issueCommand_error hc s).trans (illegalWord_running hs),
    fun s => execTblload_valid,
    fun s f hs hvalid => exec_dcorun_notValid hs hvalid f,
    fun s b hs hcfg => exec_envrun_notConfigured hs hcfg b,
    fun s hs hvalid hres => execTblload_rejected hs hvalid (resourceAccepted_eq_false_iff.2 hres),
    fun s => exec_envcfg_zero,
    fun i s t hs h htbl hdco henv hcfg => exec_ok_of_checksPass hs ?_ h⟩
  cases i with
  | tblload => exact (htbl rfl).imp_right resourceAccepted_iff.2
  | dcorun f => exact hdco ⟨f, rfl⟩
  | envcfg => exact hcfg rfl
  | envrun b => exact henv ⟨b, rfl⟩
  | dcoinit | amprun => trivial

end Sys2Proof
end

section
/-!
One quantum, `70_reset_and_hazards.md` R123: `DCORUN` fills `SIG`, `ENVRUN` fills `GAIN` with gains in range, and
`AMPRUN` multiplies what they left.
-/

namespace Sys2Proof

open Machine Safety

namespace Machine

theorem runCommands_cons_next {i : Instr} {s t : State} (h : exec i s = .next t) (rest : List Instr) :
    runCommands (i :: rest) s = runCommands rest t := by
  rw [runCommands, h, andThen_next]

theorem bufferFull_of_cellAt {m : Memory 32} {k : Nat} {v : Nat → Word} (h : ∀ n, n < k → cellAt m n = some (v n)) :
    BufferFull k m := fun n hn => by
  rw [h n hn, Option.isSome_some]

/-- After an `ENVRUN` that completed with `OK` no gain is above its range, so with both buffers written `AMPRUN`
completes (`43_amplifier.md` R85, R89). -/
theorem exec_amprun_after_envrun {trig : Bool} {s t : State} (henv : exec (.envrun trig) s = .next t)
    (hok : t.lastErr = .ok) (hrunning : t.halt = false) (hsig : BufferFull t.cfg.n t.sig)
    (hgain : BufferFull t.cfg.n t.gain) :
    ∃ out', exec .amprun t = .next { t with out := out', lastErr := .ok }
      ∧ ∀ n x g, n < t.cfg.n → cellAt t.sig n = some x → cellAt t.gain n = some g →
        ∃ y, cellAt out' n = some y ∧ signedElement t.cfg.width y
          = signedElement t.cfg.width x * (unsignedElement t.cfg.width g : Int) / 65536 := by
  obtain ⟨-, hamprun, -⟩ := amprunMultipliesElementwise t
  obtain ⟨out', hamp, hproduct, -⟩ := hamprun hrunning hsig hgain (gainsInRange_of_envrun henv hok)
  refine ⟨out', hamp, fun n x g hn hx hg => ?_⟩
  obtain ⟨y, hy, hfloor, -⟩ := hproduct n x g hn hx hg
  exact ⟨y, hy, hfloor⟩

end Machine

/-! ## The obligations -/

/-- Settles O40: each command completes from what the one before it left. `ENVRUN` leaves the tone in `SIG`, and
`AMPRUN` leaves both factors. -/
theorem quantumMultipliesToneByEnvelope : Obligations.QuantumMultipliesToneByEnvelope := by
  intro s f b hs hvalid hfull hcfg
  obtain ⟨-, -, hdcorun⟩ := dcorunFillsTheSignalBuffer f s
  obtain ⟨sig', hdco, htone, -⟩ := hdcorun hs hvalid hfull
  obtain ⟨-, -, henvrun⟩ := envrunFillsTheGainBuffer b
    { s with sig := sig', phase := phaseAfter s.phase f s.cfg.n, lastErr := .ok }
  obtain ⟨gain', henv, henvelope, -⟩ := henvrun hs hcfg
  obtain ⟨out', hamp, hproduct⟩ := exec_amprun_after_envrun henv rfl hs (bufferFull_of_cellAt htone)
    (bufferFull_of_cellAt henvelope)
  refine ⟨_, (runCommands_cons_next hdco _).trans ((runCommands_cons_next henv _).trans
    (runCommands_cons_next hamp [])), rfl, fun n hn => ?_⟩
  obtain ⟨y, hy, hfloor⟩ := hproduct n _ _ hn (htone n hn) (henvelope n hn)
  exact ⟨_, _, y, htone n hn, henvelope n hn, hy, rfl, rfl, hfloor⟩

end Sys2Proof
end

section
/-!
The encoding, `30_encoding.md` sections 3 and 4: decoding and encoding undo each other, and the words of the spec's
decode vectors.
-/

namespace Sys2Proof

/-- Settles O3: the word of an instruction lies in its row, and carries the operands in their fields. -/
theorem decodeOfEncodeIsIdentity : Obligations.DecodeOfEncodeIsIdentity := decode_encode

/-- Settles O4: a word is its row's match where the mask covers it, and the operand field elsewhere. -/
theorem encodeOfDecodeIsIdentity : Obligations.EncodeOfDecodeIsIdentity := fun _ _ => encode_of_decode

/-- Settles O1: the eight legal words are the words of their instructions; each of the five others matches no row. -/
theorem vectorWordsDecode : Obligations.VectorWordsDecode :=
  ⟨decode_encode .tblload, decode_encode .dcoinit, decode_encode (.dcorun 1365#16), decode_encode (.dcorun 65535#16),
    decode_encode .envcfg, decode_encode (.envrun false), decode_encode (.envrun true), decode_encode .amprun,
    by decide, by decide, by decide, by decide, by decide⟩

end Sys2Proof
end

section
/-!
The codes of a completion, `60_exceptions.md` R100, R101: what a failed command leaves, the codes of each command, and
the order in which `AMPRUN` meets its faults.
-/

namespace Sys2Proof

open Machine

namespace Machine

/-- A command that fails completes with its code alone, or halts the block (`60_exceptions.md` R100). -/
theorem exec_failed {i : Instr} {s t : State} (h : exec i s = .next t) (hfail : t.lastErr ≠ .ok) :
    (∃ c, c ≠ .eResource ∧ t = complete c s) ∨ t = completeFatal s := by
  cases i with
  | tblload =>
    rcases execTblload_eq_next.1 h with ⟨-, rfl⟩ | ⟨-, -, rfl⟩ | ⟨-, -, -, rfl⟩ | ⟨-, -, -, u, -, rfl⟩
    exacts [.inl ⟨.eHalted, nofun, rfl⟩, .inl ⟨.eState, nofun, rfl⟩, .inr rfl, absurd rfl hfail]
  | dcoinit =>
    rcases execDcoinit_eq_next.1 h with ⟨-, rfl⟩ | ⟨-, rfl⟩
    exacts [.inl ⟨.eHalted, nofun, rfl⟩, absurd rfl hfail]
  | dcorun fcw =>
    rcases execDcorun_eq_next.1 h with ⟨-, rfl⟩ | ⟨-, -, rfl⟩ | ⟨-, -, u, -, rfl⟩
    exacts [.inl ⟨.eHalted, nofun, rfl⟩, .inl ⟨.eState, nofun, rfl⟩, absurd rfl hfail]
  | envcfg =>
    rcases execEnvcfg_eq_next.1 h with ⟨-, rfl⟩ | ⟨-, -, rfl⟩ | ⟨-, -, rfl⟩
    exacts [.inl ⟨.eHalted, nofun, rfl⟩, .inl ⟨.eConfig, nofun, rfl⟩, absurd rfl hfail]
  | envrun trig =>
    rcases execEnvrun_eq_next.1 h with ⟨-, rfl⟩ | ⟨-, -, rfl⟩ | ⟨-, -, u, -, rfl⟩
    exacts [.inl ⟨.eHalted, nofun, rfl⟩, .inl ⟨.eState, nofun, rfl⟩, absurd rfl hfail]
  | amprun =>
    rcases execAmprun_eq_next.1 h with ⟨-, rfl⟩ | ⟨-, u, -, rfl⟩
    exacts [.inl ⟨.eHalted, nofun, rfl⟩, absurd rfl hfail]

/-- `AMPRUN` faults at element `n` if every element before it has a product. -/
theorem exec_amprun_faults_at {s : State} {e : Fault} {n : Nat} (hs : s.halt = false) (hn : n < s.cfg.n)
    (hbefore : ∀ k, k < n → HasProduct s k) (hfault : ∀ m, ampSample n { s with out := m } = .fault e) :
    exec .amprun s = .fault e := by
  obtain ⟨u, hu⟩ := ampLoop_runs hbefore
  have hf : ampSample n u = .fault e := ampLoop_frame hu ▸ hfault u.out
  change execAmprun s = _
  rw [execAmprun, unlessHalted_running hs, forSamples_fault hn hu hf, andThen_fault]

end Machine

/-! ## The obligations -/

/-- Settles O9: of the two ways to fail only the fatal one, with `E_RESOURCE`, writes `HALT`. -/
theorem failedCommandsChangeOnlyTheCode : Obligations.FailedCommandsChangeOnlyTheCode := by
  intro i s t h hfail
  rcases exec_failed h hfail with ⟨c, hc, rfl⟩ | rfl
  · exact ⟨rfl, fun hres => absurd hres hc, fun _ => rfl⟩
  · exact ⟨rfl, fun _ => rfl, fun hres => absurd rfl hres⟩

/-- Settles O10: `codesOf` lists the codes of each command. -/
theorem eachCommandHasItsCodes : Obligations.EachCommandHasItsCodes :=
  ⟨fun _ _ => exec_lastErr_mem, fun _ _ => exec_lastErr_mem, fun _ _ _ => exec_lastErr_mem,
    fun _ _ _ => exec_lastErr_mem, fun _ _ => exec_lastErr_mem, fun _ _ => exec_lastErr_mem⟩

/-- Settles O55: the loop reaches element `n`, because every element before it has a product, and its sample faults. -/
theorem amprunFaultsAtTheFirstBadElement : Obligations.AmprunFaultsAtTheFirstBadElement := fun _ _ hs hn hbefore =>
  ⟨fun hnone => exec_amprun_faults_at hs hn hbefore fun _ => ampSample_unwritten hnone,
    fun _ _ hx hg hr => exec_amprun_faults_at hs hn hbefore fun _ => ampSample_aboveRange hx hg hr⟩

end Sys2Proof
end

section
/-!
What the host sees: the address map of `20_memory.md` R31, the fields of `STATUS` and `PARAMS` (`10_state.md` R20), reads
without a side effect (`20_memory.md` R39), and the conversions of an element (`20_memory.md` R45).
-/

namespace Sys2Proof

open Machine Safety

namespace Machine

/-! ## The address map -/

theorem inSpace_eq_some {size k : Nat} {l l' : Loc} : inSpace size k l = some l' ↔ k < size ∧ l = l' := by
  simp [inSpace]

/-- A word of a space has a valid number, and stands at byte offset `4 k` of the space (`20_memory.md` R31). -/
theorem locOfSpace_eq_some {p : Params} {space k : Nat} {l : Loc} (h : locOfSpace p space k = some l) :
    ValidLoc p l ∧ locAddr l = BitVec.ofNat 20 (space * 0x10000 + 4 * k) := by
  unfold locOfSpace at h
  split at h
  case h_1 =>
    obtain ⟨c, hc, rfl⟩ := Option.map_eq_some_iff.1 h
    rw [csrOfNumber_eq_some.1 hc, Nat.zero_mul, Nat.zero_add]
    exact ⟨trivial, rfl⟩
  case h_7 => cases h
  all_goals
    obtain ⟨hk, rfl⟩ := inSpace_eq_some.1 h
    exact ⟨hk, rfl⟩

/-- Only valid elements are mapped, each at its own address alone (`20_memory.md` R31). -/
theorem locate_eq_some {p : Params} {a : Addr} {l : Loc} (h : locate p a = some l) : ValidLoc p l ∧ a = locAddr l := by
  obtain ⟨hspace, hoffset, haligned⟩ := addr_fields a
  rw [locate, Option.ite_none_right_eq_some, haligned, hspace, hoffset] at h
  obtain ⟨hal, hloc⟩ := h
  obtain ⟨hvalid, haddr⟩ := locOfSpace_eq_some hloc
  have hparts : a.toNat / 65536 * 0x10000 + 4 * (a.toNat % 65536 / 4) = a.toNat := by omega
  rw [hparts, BitVec.ofNat_toNat, BitVec.setWidth_eq] at haddr
  exact ⟨hvalid, haddr.symm⟩

theorem csrNumber_le (c : Csr) : csrNumber c ≤ 9 := by cases c <;> decide

/-- A valid element has its address. -/
theorem locate_locAddr {p : Params} (hp : p.Legal) {l : Loc} (hl : ValidLoc p l) : locate p (locAddr l) = some l := by
  cases l with
  | csr c => exact locate_csr p c
  | res k => exact locate_res p hl
  | tbl k => exact locate_tbl p hl
  | sig k => exact locate_bufferLoc hp .sig hl
  | gain k => exact locate_bufferLoc hp .gain hl
  | out k => exact locate_bufferLoc hp .out hl

theorem toNat_ofNat_addr {n : Nat} (h : n < 2 ^ 20) : (BitVec.ofNat 20 n).toNat = n :=
  (BitVec.toNat_ofNat n 20).trans (Nat.mod_eq_of_lt h)

/-! ## The fields of `STATUS` and `PARAMS` -/

/-- The encoding of `ENV_STATE` is one to one (`10_state.md` R13). -/
theorem envStateBits_injective : Function.Injective envStateBits := fun a b h => by
  cases a <;> cases b <;> simp [envStateBits] at h ⊢

theorem widthBit_eq_one {w : Width} : (widthBit w).getLsbD 0 = true ↔ w = .w32 := by cases w <;> decide

/-! ## Reads -/

/-- A host read answers, and leaves everything else but the count of draws (`20_memory.md` R39). -/
theorem hostRead_answers (a : Addr) (s : State) : ∃ v c k,
    hostRead a s = { s with answers := s.answers ++ [.readData v c], draws := k } := by
  unfold hostRead
  split
  · next r hr =>
    obtain ⟨l, -, hl⟩ := Option.bind_eq_some_iff.1 hr
    rcases readLoc_state hl with hsame | hdrawn
    · exact ⟨r.1, .ok, s.draws, by rw [hsame, answer]⟩
    · exact ⟨r.1, .ok, s.draws + 1, by rw [hdrawn]; rfl⟩
  · exact ⟨0#32, .eBus, s.draws, rfl⟩

/-! ## Elements as stored -/

theorem elementOfInt_lt (w : Width) (i : Int) : (elementOfInt w i).toNat < 2 ^ widthBits w := by
  rw [← elementBits_elementOfInt]
  exact elementBits_lt w _

theorem sextElement_w16 (v : Half) : sextElement .w16 v = v.setWidth 32 := by
  rw [sextElement, elementOfInt, BitVec.ofInt_toInt]

/-- A level fits 16 bits, so that both widths store its bits after zeros. -/
theorem zextElement_eq (w : Width) (v : Half) : zextElement w v = v.setWidth 32 := by
  cases w with
  | w16 => rw [zextElement, elementOfInt, BitVec.ofInt_natCast, BitVec.ofNat_toNat, BitVec.setWidth_eq]
  | w32 => rw [zextElement, elementOfInt, BitVec.ofInt_natCast, BitVec.ofNat_toNat]

end Machine

/-! ## The obligations -/

/-- Settles O41: the map is inverted space by space; no address of the map leaves its 20 bits. -/
theorem addressMapIsExact : Obligations.AddressMapIsExact := by
  intro p hp
  refine ⟨fun l => locate_locAddr hp, fun a l => locate_eq_some, fun c => ⟨?_, csrNumber_le c⟩, fun k hk => ?_,
    fun k hk => ?_, fun k hk => ?_⟩
  · have := csrNumber_le c
    exact toNat_ofNat_addr (by omega)
  · exact toNat_ofNat_addr (by omega)
  · exact toNat_ofNat_addr (by omega)
  · have hmax : k < 16384 := hk.trans_le hp.2
    exact ⟨toNat_ofNat_addr (by omega), toNat_ofNat_addr (by omega), toNat_ofNat_addr (by omega)⟩

/-- Settles O46: each field of a view stands in its place, and the encodings are the spec's. -/
theorem statusAndParamsFields : Obligations.StatusAndParamsFields := by
  refine ⟨fun s => ?_, by decide, fun p hp => ?_⟩
  · obtain ⟨hvalid, hcfg, hstate, hhalt, hzero, hcode, hrest⟩ :=
      status_fields (codeBits s.lastErr) (envStateBits s.envState) s.halt s.envCfg s.tblValid
    have hiff (st : EnvState) : (statusWord s).extractLsb' 2 2 = envStateBits st ↔ s.envState = st := by
      rw [statusWord, hstate, envStateBits_injective.eq_iff]
    exact ⟨hvalid, hcfg, hiff .off, hiff .attack, hiff .release, hhalt, hzero, hcode, hrest⟩
  · obtain ⟨hn, hzero, hwidth, hmode, hrest⟩ := params_fields (modeBits p.mode) (widthBit p.width) (BitVec.ofNat 15 p.n)
    refine ⟨?_, hzero, ?_, ?_, hrest⟩
    · rw [paramsWord, hn, BitVec.toNat_ofNat]
      exact Nat.mod_eq_of_lt (hp.2.trans_lt (by decide))
    · rw [← widthBit_eq_one, ← hwidth]
      simp [paramsWord]
    · rw [paramsWord, hmode]
      cases p.mode <;> rfl

/-- Settles O47: a read gives its answer and may count a draw. -/
theorem hostReadsHaveNoSideEffect : Obligations.HostReadsHaveNoSideEffect := by
  intro s a
  obtain ⟨v, c, k, hread⟩ := hostRead_answers a s
  exact ⟨v, c, k, congrArg _ hread⟩

/-- Settles O48: a sample and a level fit an element of either width; sign extension is the value as an integer. -/
theorem elementConversionsPreserveValues : Obligations.ElementConversionsPreserveValues := by
  intro w v
  refine ⟨signedElement_sextElement w v, unsignedElement_zextElement w v, elementOfInt_lt w _, elementOfInt_lt w _, ?_, ?_⟩
  · rintro rfl
    exact ⟨sextElement_w16 v, zextElement_eq _ v⟩
  · rintro rfl
    exact ⟨rfl, zextElement_eq _ v⟩

end Sys2Proof
end

section
/-!
The invariant of the block, `10_state.md` R25: it holds at reset, and every sample of a loop, every command and every
host event keeps it.
-/

namespace Sys2Proof

open Machine Safety

namespace Machine

/-- A write to a memory removes no value. -/
theorem isSome_cellAt_setCell {w : Nat} {m : Memory w} {j : Nat} (h : (cellAt m j).isSome = true) (k : Nat)
    (v : BitVec w) : (cellAt (setCell m k v) j).isSome = true := by
  rw [cellAt_setCell]
  split
  · rfl
  · exact h

/-- A copy loop that ran to its end has given every entry a value (`40_sinetable.md` R60 (a)). -/
theorem copyLoop_full {s u : State} (h : forSamples copyEntry Config.tableLen s = .next u) : TableFull u := by
  intro i hi
  rw [copyLoop_cellAt h, if_pos hi, Option.isSome_iff_ne_none]
  intro hnone
  rw [copyLoop_faults hi hnone] at h
  cases h

/-- A buffer of an instance takes every integer, truncated to `W` bits, at each of its elements. -/
theorem bufferInv_setCell_ofInt {p : Params} {m : Memory 32} (h : BufferInv p m) {k : Nat} (hk : k < p.n) (i : Int) :
    BufferInv p (setCell m k (elementOfInt p.width i)) :=
  bufferInv_setCell h hk (elementBits_elementOfInt p.width i)

/-- A host write to a valid element stores `W` bits (`20_memory.md` R33). -/
theorem bufferInv_writeBuffer {p : Params} {m : Memory 32} (h : BufferInv p m) {k : Nat} (hk : k < p.n) (d : Word) :
    BufferInv p (writeBuffer p.width m k d) :=
  bufferInv_setCell h hk (elementBits_idem p.width d)

theorem bufferInv_nil (p : Params) : BufferInv p [] where
  wf := List.Pairwise.nil
  below := nofun
  fit := nofun

end Machine

namespace Safety.BlockInv

variable {s t : State}

/-! ## Samples -/

theorem after_copyEntry (hs : BlockInv s) {k : Nat} (hk : k < Config.tableLen) (h : copyEntry k s = .next t) :
    t.cfg = s.cfg ∧ BlockInv t := by
  obtain ⟨low, high, -, -, rfl⟩ := copyEntry_eq_next.1 h
  exact ⟨rfl, { hs with
    tblWf := setCell_wf hs.tblWf k _
    tblBelow := setCell_below hs.tblBelow hk _
    validFull := fun hv i hi => isSome_cellAt_setCell (hs.validFull hv i hi) k _ }⟩

theorem after_dcoSample (hs : BlockInv s) {k : Nat} (hk : k < s.cfg.n) {fcw : Half} (h : dcoSample fcw k s = .next t) :
    t.cfg = s.cfg ∧ BlockInv t := by
  obtain ⟨v0, v1, -, -, rfl⟩ := dcoSample_eq_next.1 h
  exact ⟨rfl, { hs with sig := bufferInv_setCell_ofInt hs.sig hk _ }⟩

theorem after_envSample (hs : BlockInv s) {k : Nat} (hk : k < s.cfg.n) (h : envSample k s = .next t) :
    t.cfg = s.cfg ∧ BlockInv t := by
  rw [envSample_eq] at h
  cases h
  exact ⟨rfl, { hs with gain := bufferInv_setCell_ofInt hs.gain hk _, offLevel := envNext_off }⟩

theorem after_ampSample (hs : BlockInv s) {k : Nat} (hk : k < s.cfg.n) (h : ampSample k s = .next t) :
    t.cfg = s.cfg ∧ BlockInv t := by
  obtain ⟨x, g, -, -, -, rfl⟩ := ampSample_eq_next.1 h
  exact ⟨rfl, { hs with out := bufferInv_setCell_ofInt hs.out hk _ }⟩

/-- A loop keeps the invariant if its samples do, in the instance in which it began. -/
theorem after_loop {body : Nat → State → Result} {n : Nat} (hs : BlockInv s)
    (hbody : ∀ k u v, k < n → u.cfg = s.cfg → BlockInv u → body k u = .next v → v.cfg = u.cfg ∧ BlockInv v)
    (h : forSamples body n s = .next t) : BlockInv t := by
  suffices hP : t.cfg = s.cfg ∧ BlockInv t from hP.2
  refine forSamples_keeps (fun _ u => u.cfg = s.cfg ∧ BlockInv u) ⟨rfl, hs⟩ (fun k u v hk hu hb => ?_) h
  obtain ⟨hcfg, hinv⟩ := hu
  exact (hbody k u v hk hcfg hinv hb).imp_left fun hv => hv.trans hcfg

/-! ## Commands -/

theorem after_complete (hs : BlockInv s) (c : Code) : BlockInv (complete c s) := { hs with }

/-- The fatal error is that of a block without a valid table (`10_state.md` R25 (g)). -/
theorem after_completeFatal (hs : BlockInv s) (hv : s.tblValid = false) : BlockInv (completeFatal s) :=
  { hs with validRuns := fun hv' => absurd hv' (Bool.eq_false_iff.1 hv) }

theorem after_applyTrigger (hs : BlockInv s) (trig : Bool) : BlockInv (applyTrigger trig s) := by
  cases trig with
  | false => exact hs
  | true => exact { hs with offLevel := nofun }

theorem after_execTblload (hs : BlockInv s) (h : execTblload s = .next t) : BlockInv t := by
  rcases execTblload_eq_next.1 h with ⟨-, rfl⟩ | ⟨-, -, rfl⟩ | ⟨-, hv, -, rfl⟩ | ⟨hrunning, -, -, u, hu, rfl⟩
  · exact hs.after_complete _
  · exact hs.after_complete _
  · exact hs.after_completeFatal hv
  · have hinv : BlockInv u := hs.after_loop (fun _ _ _ hk _ hi => hi.after_copyEntry hk) hu
    have hhalt : u.halt = false := by rw [copyLoop_frame hu]; exact hrunning
    have hfull : TableFull u := copyLoop_full hu
    exact { hinv with validRuns := fun _ => hhalt, validFull := fun _ => hfull }

theorem after_execDcorun {fcw : Half} (hs : BlockInv s) (h : execDcorun fcw s = .next t) : BlockInv t := by
  rcases execDcorun_eq_next.1 h with ⟨-, rfl⟩ | ⟨-, -, rfl⟩ | ⟨-, -, u, hu, rfl⟩
  · exact hs.after_complete _
  · exact hs.after_complete _
  · exact (hs.after_loop (fun _ _ _ hk hcfg hi => hi.after_dcoSample (hcfg ▸ hk)) hu).after_complete _

theorem after_execEnvrun {trig : Bool} (hs : BlockInv s) (h : execEnvrun trig s = .next t) : BlockInv t := by
  rcases execEnvrun_eq_next.1 h with ⟨-, rfl⟩ | ⟨-, -, rfl⟩ | ⟨-, -, u, hu, rfl⟩
  · exact hs.after_complete _
  · exact hs.after_complete _
  · rw [← applyTrigger_cfg trig s] at hu
    exact ((hs.after_applyTrigger trig).after_loop (fun _ _ _ hk hcfg hi => hi.after_envSample (hcfg ▸ hk))
      hu).after_complete _

theorem after_execAmprun (hs : BlockInv s) (h : execAmprun s = .next t) : BlockInv t := by
  rcases execAmprun_eq_next.1 h with ⟨-, rfl⟩ | ⟨-, u, hu, rfl⟩
  · exact hs.after_complete _
  · exact (hs.after_loop (fun _ _ _ hk hcfg hi => hi.after_ampSample (hcfg ▸ hk)) hu).after_complete _

theorem after_exec {i : Instr} (hs : BlockInv s) (h : exec i s = .next t) : BlockInv t := by
  cases i with
  | tblload => exact hs.after_execTblload h
  | dcoinit => rcases execDcoinit_eq_next.1 h with ⟨-, rfl⟩ | ⟨-, rfl⟩ <;> exact { hs with }
  | dcorun fcw => exact hs.after_execDcorun h
  | envcfg => rcases execEnvcfg_eq_next.1 h with ⟨-, rfl⟩ | ⟨-, -, rfl⟩ | ⟨-, -, rfl⟩ <;> exact { hs with }
  | envrun trig => exact hs.after_execEnvrun h
  | amprun => exact hs.after_execAmprun h

/-! ## Events -/

theorem after_issueCommand {c : Word} (hs : BlockInv s) (h : issueCommand c s = .next t) : BlockInv t := by
  rcases issueCommand_eq_next h with ⟨i, -, hi⟩ | ⟨k, rfl⟩
  · exact hs.after_exec hi
  · exact hs.after_complete k

/-- The address map lets a host write reach the valid elements alone (`20_memory.md` R31). -/
theorem after_hostWrite {a : Addr} {d : Word} (hs : BlockInv s) (h : hostWrite a d s = .next t) : BlockInv t := by
  rcases hostWrite_cases h with ⟨-, u, hu, rfl⟩ | rfl | ⟨-, rfl⟩ | ⟨-, rfl⟩ | ⟨-, rfl⟩ | ⟨k, hl, rfl⟩ | ⟨k, hl, rfl⟩
    | ⟨k, hl, rfl⟩ | ⟨k, hl, rfl⟩
  · exact { hs.after_issueCommand hu with }
  iterate 4 exact { hs with }
  · have hk : k < 128 := (locate_eq_some hl).1
    exact { hs with resWf := writeRes_wf hs.resWf k d, resBelow := writeRes_below hs.resBelow hk d }
  · exact { hs with sig := bufferInv_writeBuffer hs.sig (locate_eq_some hl).1 d }
  · exact { hs with gain := bufferInv_writeBuffer hs.gain (locate_eq_some hl).1 d }
  · exact { hs with out := bufferInv_writeBuffer hs.out (locate_eq_some hl).1 d }

theorem after_hostRead (hs : BlockInv s) (a : Addr) : BlockInv (hostRead a s) := by
  rw [hostRead_frame]
  exact { hs with }

/-- At reset no memory lists an element, the level is 0 and no table is valid (`10_state.md` R26). -/
theorem at_reset {p : Params} (hp : p.Legal) : BlockInv (State.resetOf p) where
  legal := hp
  tblWf := List.Pairwise.nil
  tblBelow := nofun
  resWf := List.Pairwise.nil
  resBelow := nofun
  sig := bufferInv_nil p
  gain := bufferInv_nil p
  out := bufferInv_nil p
  offLevel _ := rfl
  validRuns := nofun
  validFull := nofun

theorem after_perform {e : HostEvent} (hs : BlockInv s) (h : perform e s = .next t) : BlockInv t := by
  cases e with
  | read a => cases h; exact hs.after_hostRead a
  | write a d => exact hs.after_hostWrite h
  | reset => cases h; exact { at_reset hs.legal with }

theorem after_step (hs : BlockInv s) (h : step s = .next t) : BlockInv t := by
  unfold step at h
  split at h
  · cases h; exact hs
  · next e rest _ => exact after_perform (s := { s with inbox := rest }) { hs with } h

end Safety.BlockInv

/-! ## The obligations -/

/-- Settles O53: a step is an idle one or one event, and every event keeps the invariant. -/
theorem everyStepKeepsTheInvariant : Obligations.EveryStepKeepsTheInvariant := fun _ _ hs => hs.after_step

/-- Settles O52: the named instance is a legal one. -/
theorem invariantHoldsAtReset : Obligations.InvariantHoldsAtReset :=
  ⟨fun _ => BlockInv.at_reset, BlockInv.at_reset (by decide)⟩

end Sys2Proof
end

section
/-!
When a step has a result, `70_reset_and_hazards.md` R128: no part of the model refuses, and from a state with the
invariant only a `TBLLOAD` or an `AMPRUN` can stop.
-/

namespace Sys2Proof

open Machine Safety

namespace Machine

/-! ## Nothing refuses -/

/-- The result is no refusal: everything that ran has a meaning in the model. -/
def Modelled (r : Result) : Prop := ∀ e, r ≠ .refused e

theorem modelled_next (s : State) : Modelled (.next s) := nofun

theorem modelled_fault (e : Fault) : Modelled (.fault e) := nofun

theorem modelled_andThen {r : Result} {f : State → Result} (hr : Modelled r) (hf : ∀ s, Modelled (f s)) :
    Modelled (andThen r f) := by
  cases r with
  | next s => exact hf s
  | fault e => exact modelled_fault e
  | refused e => exact absurd rfl (hr e)

theorem modelled_withValue {α : Type} (o : Option α) (e : Fault) {f : α → Result} (hf : ∀ v, Modelled (f v)) :
    Modelled (withValue o e f) := by
  cases o with
  | some v => exact hf v
  | none => exact modelled_fault e

theorem modelled_forSamples {body : Nat → State → Result} (h : ∀ k s, Modelled (body k s)) (n : Nat) (s : State) :
    Modelled (forSamples body n s) := by
  induction n with
  | zero => exact modelled_next s
  | succ n ih => exact modelled_andThen ih (h n)

theorem modelled_unlessHalted (s : State) {r : Result} (h : Modelled r) : Modelled (unlessHalted s r) := by
  unfold unlessHalted
  split
  · exact modelled_next _
  · exact h

theorem modelled_copyEntry (i : Nat) (s : State) : Modelled (copyEntry i s) :=
  modelled_withValue _ _ fun _ => modelled_withValue _ _ fun _ => modelled_next _

theorem modelled_dcoSample (fcw : Half) (n : Nat) (s : State) : Modelled (dcoSample fcw n s) :=
  modelled_withValue _ _ fun _ => modelled_withValue _ _ fun _ => modelled_next _

theorem modelled_envSample (n : Nat) (s : State) : Modelled (envSample n s) := modelled_next _

theorem modelled_ampSample (n : Nat) (s : State) : Modelled (ampSample n s) :=
  modelled_withValue _ _ fun x => modelled_withValue _ _ fun g => by
    split
    · exact modelled_fault _
    · exact modelled_next _

theorem modelled_exec (i : Instr) (s : State) : Modelled (exec i s) := by
  cases i with
  | tblload =>
    refine modelled_unlessHalted s ?_
    split
    · exact modelled_next _
    · split
      · exact modelled_next _
      · exact modelled_andThen (modelled_forSamples modelled_copyEntry _ s) fun _ => modelled_next _
  | dcoinit => exact modelled_unlessHalted s (modelled_next _)
  | dcorun fcw =>
    refine modelled_unlessHalted s ?_
    split
    · exact modelled_andThen (modelled_forSamples (modelled_dcoSample fcw) _ s) fun _ => modelled_next _
    · exact modelled_next _
  | envcfg =>
    refine modelled_unlessHalted s ?_
    split <;> exact modelled_next _
  | envrun trig =>
    refine modelled_unlessHalted s ?_
    split
    · exact modelled_andThen (modelled_forSamples modelled_envSample _ _) fun _ => modelled_next _
    · exact modelled_next _
  | amprun =>
    refine modelled_unlessHalted s ?_
    exact modelled_andThen (modelled_forSamples modelled_ampSample _ s) fun _ => modelled_next _

theorem modelled_issueCommand (c : Word) (s : State) : Modelled (issueCommand c s) := by
  cases hd : decode c with
  | ok i => rw [issueCommand_ok hd]; exact modelled_exec i s
  | error r => rw [issueCommand_error hd]; exact modelled_unlessHalted s (modelled_next _)

/-! ## Events that stop -/

/-- A host write answers a next state, or it is the write of a command word. -/
theorem hostWrite_answers (a : Addr) (d : Word) (s : State) : (∃ t, hostWrite a d s = .next t) ∨ a = 0#20 := by
  unfold hostWrite
  split
  · next l hl =>
    cases l with
    | csr c =>
      cases c with
      | cmd => exact .inr (eq_zero_of_locate_cmd hl)
      | _ => exact .inl ⟨_, rfl⟩
    | _ => exact .inl ⟨_, rfl⟩
  · exact .inl ⟨_, rfl⟩

/-- Every event answers a next state, but for a command word. -/
theorem perform_answers (e : HostEvent) (s : State) : (∃ t, perform e s = .next t) ∨ ∃ c, e = commandEvent c := by
  cases e with
  | read a => exact .inl ⟨_, rfl⟩
  | write a d => exact (hostWrite_answers a d s).imp_right fun ha => ⟨d, by rw [ha, commandEvent]⟩
  | reset => exact .inl ⟨_, rfl⟩

theorem modelled_perform (e : HostEvent) (s : State) : Modelled (perform e s) := by
  rcases perform_answers e s with ⟨t, ht⟩ | ⟨c, rfl⟩
  · rw [ht]
    exact modelled_next t
  · rw [perform_commandEvent]
    exact modelled_andThen (modelled_issueCommand c s) fun _ => modelled_next _

theorem modelled_step (s : State) : Modelled (step s) := by
  unfold step
  split
  · exact modelled_next s
  · exact modelled_perform _ _

theorem illegalWord_answers (s : State) : ∃ t, illegalWord s = .next t := by
  unfold illegalWord unlessHalted
  split <;> exact ⟨_, rfl⟩

/-- An event without a next state issues a command without one. -/
theorem issues_of_perform_stops {e : HostEvent} {s : State} (h : ∀ t, perform e s ≠ .next t) :
    ∃ i, Issues e i ∧ ∀ t, exec i s ≠ .next t := by
  rcases perform_answers e s with ⟨t, ht⟩ | ⟨c, rfl⟩
  · exact absurd ht (h t)
  · rw [perform_commandEvent] at h
    cases hd : decode c with
    | ok i =>
      refine ⟨i, ⟨c, rfl, hd⟩, fun t ht => h (answer (.written t.lastErr) t) ?_⟩
      rw [issueCommand_ok hd, ht, andThen_next]
    | error r =>
      obtain ⟨t, ht⟩ := illegalWord_answers s
      refine absurd ?_ (h (answer (.written t.lastErr) t))
      rw [issueCommand_error hd, ht, andThen_next]

/-! ## Commands that stop -/

/-- A command without a next state runs on a block that is not halted. -/
theorem running_of_exec_stops {i : Instr} {s : State} (h : ∀ t, exec i s ≠ .next t) : s.halt = false :=
  Bool.eq_false_iff.2 fun hs => h _ (exec_halted hs i)

/-- `TBLLOAD` stops only at an unwritten byte (`40_sinetable.md` R60 (e)). -/
theorem execTblload_answers {s : State} (hs : s.halt = false) (hfull : ResourceFull s) :
    ∃ t, exec .tblload s = .next t := by
  cases hv : s.tblValid with
  | true => exact ⟨_, execTblload_valid hs hv⟩
  | false =>
    cases hd : resourceAccepted s.resDesc with
    | false => exact ⟨_, execTblload_rejected hs hv hd⟩
    | true =>
      obtain ⟨u, hu⟩ := copyLoop_runs (k := Config.tableLen) fun i hi => resEntry_isSome hfull hi
      exact ⟨_, execTblload_eq_next.2 (.inr (.inr (.inr ⟨hs, hv, hd, u, hu, rfl⟩)))⟩

/-- With the invariant only two commands can stop: `TBLLOAD` at an unwritten byte, `AMPRUN` at an element without a
product. -/
theorem exec_stops {i : Instr} {s : State} (hs : BlockInv s) (h : ∀ t, exec i s ≠ .next t) :
    (i = .tblload ∧ ¬ ResourceFull s)
      ∨ (i = .amprun ∧ ¬ (BufferFull s.cfg.n s.sig ∧ BufferFull s.cfg.n s.gain ∧ GainsInRange s)) := by
  have hrunning := running_of_exec_stops h
  have answers {p : Prop} (ht : ∃ t, exec i s = .next t) : p := ht.elim fun t ht => absurd ht (h t)
  cases i with
  | tblload => exact .inl ⟨rfl, fun hfull => answers (execTblload_answers hrunning hfull)⟩
  | dcoinit => exact answers ⟨_, exec_dcoinit_running hrunning⟩
  | dcorun fcw =>
    cases hv : s.tblValid with
    | false => exact answers ⟨_, exec_dcorun_notValid hrunning hv fcw⟩
    | true =>
      obtain ⟨sig', ht, -⟩ := exec_dcorun_full hrunning hv (hs.validFull hv) fcw
      exact answers ⟨_, ht⟩
  | envcfg =>
    by_cases hzero : s.arg0 = 0#32 ∨ s.arg1 = 0#32
    · exact answers ⟨_, exec_envcfg_zero hrunning hzero⟩
    · obtain ⟨h0, h1⟩ := not_or.1 hzero
      exact answers ⟨_, exec_envcfg_nonzero hrunning h0 h1⟩
  | envrun trig =>
    cases hc : s.envCfg with
    | false => exact answers ⟨_, exec_envrun_notConfigured hrunning hc trig⟩
    | true =>
      obtain ⟨gain', ht, -⟩ := exec_envrun_configured hrunning hc trig
      exact answers ⟨_, ht⟩
  | amprun =>
    refine .inr ⟨rfl, fun ⟨hsig, hgain, hrange⟩ => ?_⟩
    obtain ⟨u, hu⟩ := ampLoop_runs fun n hn => hasProduct_of_full hn hsig hgain hrange
    exact answers ⟨_, execAmprun_eq_next.2 (.inr ⟨hrunning, u, hu, rfl⟩)⟩

/-! ## Steps -/

theorem step_idle {s : State} (h : s.inbox = []) : step s = .next s := by
  rw [step, h]

theorem step_event {s : State} {e : HostEvent} {rest : List HostEvent} (h : s.inbox = e :: rest) :
    step s = perform e { s with inbox := rest } := by
  rw [step, h]

end Machine

/-! ## The obligations -/

/-- Settles O7: the idle step, and the step with an event. -/
theorem stepPerformsTheOldestEvent : Obligations.StepPerformsTheOldestEvent :=
  ⟨fun _ => step_idle, fun _ _ _ => step_event⟩

/-- Settles O54: a step that stops performs an event that issues a command that stops. -/
theorem onlyUnwrittenDataOrBadGainFaults : Obligations.OnlyUnwrittenDataOrBadGainFaults := by
  refine ⟨modelled_step, fun s hs => or_iff_not_imp_left.2 fun hstuck => ?_⟩
  cases hin : s.inbox with
  | nil => exact absurd ⟨s, step_idle hin⟩ hstuck
  | cons e rest =>
    obtain ⟨i, hi, hstops⟩ := issues_of_perform_stops (e := e) (s := { s with inbox := rest }) fun t ht =>
      hstuck ⟨t, (step_event hin).trans ht⟩
    rcases exec_stops (s := { s with inbox := rest }) { hs with } hstops with ⟨rfl, hbad⟩ | ⟨rfl, hbad⟩
    · exact .inl ⟨e, rest, rfl, hi, hbad⟩
    · exact .inr ⟨e, rest, rfl, hi, hbad⟩

end Sys2Proof
end

section
/-!
Who writes what, `10_state.md` R10: each item of state with its writers, as the spec's table lists them, and that an
event changes an item only if it is one of them. From this follow the rules on the phase (R12), the rates (R15), `HALT`
(`60_exceptions.md` R106) and the external reset (`70_reset_and_hazards.md` R120).
-/

namespace Sys2Proof

open Machine Safety

namespace Machine

/-! ## The table of items -/

/-- The items of state that the spec lists, and the configuration (`10_state.md` R10). -/
inductive Item where
  | cfg
  | tbl
  | tblValid
  | phase
  | envState
  | envLevel
  | attackRate
  | releaseRate
  | envCfg
  | sig
  | gain
  | out
  | arg0
  | arg1
  | res
  | resDesc
  | lastErr
  | halt

/-- The item is the same in both states. -/
def Item.Same (s t : State) : Item → Prop
  | .cfg => t.cfg = s.cfg
  | .tbl => t.tbl = s.tbl
  | .tblValid => t.tblValid = s.tblValid
  | .phase => t.phase = s.phase
  | .envState => t.envState = s.envState
  | .envLevel => t.envLevel = s.envLevel
  | .attackRate => t.attackRate = s.attackRate
  | .releaseRate => t.releaseRate = s.releaseRate
  | .envCfg => t.envCfg = s.envCfg
  | .sig => t.sig = s.sig
  | .gain => t.gain = s.gain
  | .out => t.out = s.out
  | .arg0 => t.arg0 = s.arg0
  | .arg1 => t.arg1 = s.arg1
  | .res => t.res = s.res
  | .resDesc => t.resDesc = s.resDesc
  | .lastErr => t.lastErr = s.lastErr
  | .halt => t.halt = s.halt

/-- The event is one of the item's writers: the column "written by" of the table (`10_state.md` R10). -/
def Item.Writer (p : Params) (e : HostEvent) : Item → Prop
  | .cfg => False
  | .tbl | .tblValid | .halt => Issues e .tblload
  | .phase => Issues e .dcoinit ∨ ∃ f, Issues e (.dcorun f)
  | .envState | .envLevel => ∃ b, Issues e (.envrun b)
  | .attackRate | .releaseRate | .envCfg => Issues e .envcfg
  | .sig => (∃ f, Issues e (.dcorun f)) ∨ ∃ k, WritesLoc p e (.sig k)
  | .gain => (∃ b, Issues e (.envrun b)) ∨ ∃ k, WritesLoc p e (.gain k)
  | .out => Issues e .amprun ∨ ∃ k, WritesLoc p e (.out k)
  | .arg0 => WritesLoc p e (.csr .arg0)
  | .arg1 => WritesLoc p e (.csr .arg1)
  | .res => ∃ k, WritesLoc p e (.res k)
  | .resDesc => WritesLoc p e (.csr .resDesc)
  | .lastErr => ∃ c, e = commandEvent c

/-- An answer to the host is no item of the block. -/
theorem Item.Same.answer {s t : State} {x : Item} (h : x.Same s t) (a : Answer) : x.Same s (answer a t) := by
  cases x <;> exact h

/-! ## Commands -/

/-- The state `s` with the items that a command may write taken from `t`. -/
def commandFrame (i : Instr) (s t : State) : State :=
  match i with
  | .tblload => { s with tbl := t.tbl, tblValid := t.tblValid, lastErr := t.lastErr, halt := t.halt }
  | .dcoinit => { s with phase := t.phase, lastErr := t.lastErr }
  | .dcorun _ => { s with sig := t.sig, phase := t.phase, lastErr := t.lastErr }
  | .envcfg =>
    { s with attackRate := t.attackRate, releaseRate := t.releaseRate, envCfg := t.envCfg, lastErr := t.lastErr }
  | .envrun _ => { s with gain := t.gain, envState := t.envState, envLevel := t.envLevel, lastErr := t.lastErr }
  | .amprun => { s with out := t.out, lastErr := t.lastErr }

/-- A command changes the items of its frame alone. -/
theorem exec_frame {i : Instr} {s t : State} (h : exec i s = .next t) : t = commandFrame i s t := by
  cases i with
  | tblload =>
    rcases execTblload_eq_next.1 h with ⟨-, rfl⟩ | ⟨-, -, rfl⟩ | ⟨-, -, -, rfl⟩ | ⟨-, -, -, u, hu, rfl⟩
    iterate 3 exact rfl
    rw [copyLoop_frame hu]
    rfl
  | dcoinit => rcases execDcoinit_eq_next.1 h with ⟨-, rfl⟩ | ⟨-, rfl⟩ <;> rfl
  | dcorun fcw =>
    rcases execDcorun_eq_next.1 h with ⟨-, rfl⟩ | ⟨-, -, rfl⟩ | ⟨-, -, u, hu, rfl⟩
    iterate 2 exact rfl
    rw [dcoLoop_frame hu]
    rfl
  | envcfg => rcases execEnvcfg_eq_next.1 h with ⟨-, rfl⟩ | ⟨-, -, rfl⟩ | ⟨-, -, rfl⟩ <;> rfl
  | envrun trig =>
    rcases execEnvrun_eq_next.1 h with ⟨-, rfl⟩ | ⟨-, -, rfl⟩ | ⟨-, -, u, hu, rfl⟩
    iterate 2 exact rfl
    rw [envLoop_frame hu]
    cases trig <;> rfl
  | amprun =>
    rcases execAmprun_eq_next.1 h with ⟨-, rfl⟩ | ⟨-, u, hu, rfl⟩
    · rfl
    · rw [ampLoop_frame hu]
      rfl

/-- A command changes only items of which it is a writer. -/
theorem exec_items {i : Instr} {s t : State} {e : HostEvent} (h : exec i s = .next t) (hi : Issues e i) (p : Params)
    (x : Item) : x.Same s t ∨ x.Writer p e := by
  have hcmd : ∃ c, e = commandEvent c := hi.imp fun _ => And.left
  rw [exec_frame h]
  cases i with
  | tblload =>
    cases x with
    | tbl | tblValid | halt => exact .inr hi
    | lastErr => exact .inr hcmd
    | _ => exact .inl rfl
  | dcoinit =>
    cases x with
    | phase => exact .inr (.inl hi)
    | lastErr => exact .inr hcmd
    | _ => exact .inl rfl
  | dcorun f =>
    cases x with
    | sig => exact .inr (.inl ⟨f, hi⟩)
    | phase => exact .inr (.inr ⟨f, hi⟩)
    | lastErr => exact .inr hcmd
    | _ => exact .inl rfl
  | envcfg =>
    cases x with
    | attackRate | releaseRate | envCfg => exact .inr hi
    | lastErr => exact .inr hcmd
    | _ => exact .inl rfl
  | envrun b =>
    cases x with
    | gain => exact .inr (.inl ⟨b, hi⟩)
    | envState | envLevel => exact .inr ⟨b, hi⟩
    | lastErr => exact .inr hcmd
    | _ => exact .inl rfl
  | amprun =>
    cases x with
    | out => exact .inr (.inl hi)
    | lastErr => exact .inr hcmd
    | _ => exact .inl rfl

/-! ## Events -/

theorem issueCommand_items {c : Word} {s t : State} (h : issueCommand c s = .next t) (p : Params) (x : Item) :
    x.Same s t ∨ x.Writer p (commandEvent c) := by
  rcases issueCommand_eq_next h with ⟨i, hi, hexec⟩ | ⟨k, rfl⟩
  · exact exec_items hexec ⟨c, rfl, hi⟩ p x
  · cases x with
    | lastErr => exact .inr ⟨c, rfl⟩
    | _ => exact .inl rfl

/-- A host write changes only the item of its location, or issues a command. -/
theorem hostWrite_items {a : Addr} {d : Word} {s t : State} (h : hostWrite a d s = .next t) (x : Item) :
    x.Same s t ∨ x.Writer s.cfg (.write a d) := by
  rcases hostWrite_cases h with ⟨rfl, u, hu, rfl⟩ | rfl | ⟨hl, rfl⟩ | ⟨hl, rfl⟩ | ⟨hl, rfl⟩ | ⟨k, hl, rfl⟩
    | ⟨k, hl, rfl⟩ | ⟨k, hl, rfl⟩ | ⟨k, hl, rfl⟩
  · exact (issueCommand_items hu s.cfg x).imp_left fun hx => hx.answer _
  · cases x <;> exact .inl rfl
  · cases x with
    | arg0 => exact .inr ⟨a, d, rfl, hl⟩
    | _ => exact .inl rfl
  · cases x with
    | arg1 => exact .inr ⟨a, d, rfl, hl⟩
    | _ => exact .inl rfl
  · cases x with
    | resDesc => exact .inr ⟨a, d, rfl, hl⟩
    | _ => exact .inl rfl
  · cases x with
    | res => exact .inr ⟨k, a, d, rfl, hl⟩
    | _ => exact .inl rfl
  · cases x with
    | sig => exact .inr (.inr ⟨k, a, d, rfl, hl⟩)
    | _ => exact .inl rfl
  · cases x with
    | gain => exact .inr (.inr ⟨k, a, d, rfl, hl⟩)
    | _ => exact .inl rfl
  · cases x with
    | out => exact .inr (.inr ⟨k, a, d, rfl, hl⟩)
    | _ => exact .inl rfl

/-- Every event but the reset changes only items of which it is a writer (`10_state.md` R10). -/
theorem perform_items {e : HostEvent} {s t : State} (h : perform e s = .next t) (he : e ≠ .reset) (x : Item) :
    x.Same s t ∨ x.Writer s.cfg e := by
  cases e with
  | read a =>
    cases h
    rw [hostRead_frame]
    cases x <;> exact .inl rfl
  | write a d => exact hostWrite_items h x
  | reset => exact absurd rfl he

/-- An event that issues a command performs it and answers with its code. -/
theorem perform_of_issues {e : HostEvent} {i : Instr} {s t : State} (hi : Issues e i) (h : perform e s = .next t) :
    ∃ u, exec i s = .next u ∧ t = answer (.written u.lastErr) u := by
  obtain ⟨c, rfl, hc⟩ := hi
  rw [perform_commandEvent, issueCommand_ok hc, andThen_eq_next] at h
  obtain ⟨u, hu, ht⟩ := h
  exact ⟨u, hu, next_eq_next.1 ht⟩

/-! ## What no event but the reset undoes -/

/-- An event changes a rate or `ENV_CFG` only as an `ENVCFG` that completes with `OK` (`10_state.md` R15). -/
theorem envcfg_of_change {e : HostEvent} {s t : State} (h : perform e s = .next t) (he : e ≠ .reset)
    (hchange : t.attackRate ≠ s.attackRate ∨ t.releaseRate ≠ s.releaseRate ∨ t.envCfg ≠ s.envCfg) :
    Issues e .envcfg ∧ t.lastErr = .ok ∧ t.envCfg = true := by
  have hitems := perform_items h he
  have hissues : Issues e .envcfg := by
    rcases hchange with hne | hne | hne
    · exact (hitems .attackRate).resolve_left hne
    · exact (hitems .releaseRate).resolve_left hne
    · exact (hitems .envCfg).resolve_left hne
  obtain ⟨u, hu, rfl⟩ := perform_of_issues hissues h
  rcases execEnvcfg_eq_next.1 hu with ⟨-, rfl⟩ | ⟨-, -, rfl⟩ | ⟨-, -, rfl⟩
  · simp at hchange
  · simp at hchange
  · exact ⟨hissues, rfl, rfl⟩

/-- A halted block stays halted (`60_exceptions.md` R106). -/
theorem halt_of_perform {e : HostEvent} {s t : State} (h : perform e s = .next t) (he : e ≠ .reset)
    (hs : s.halt = true) : t.halt = true := by
  rcases perform_items h he .halt with hsame | hissues
  · exact hsame.trans hs
  · obtain ⟨u, hu, rfl⟩ := perform_of_issues hissues h
    rw [exec_halted hs] at hu
    cases hu
    exact hs

theorem tblValid_of_perform {e : HostEvent} {s t : State} (h : perform e s = .next t) (he : e ≠ .reset)
    (hs : s.tblValid = true) : t.tblValid = true :=
  (HasTable.after_perform ⟨rfl, hs⟩ he h).2

theorem envCfg_of_perform {e : HostEvent} {s t : State} (h : perform e s = .next t) (he : e ≠ .reset)
    (hs : s.envCfg = true) : t.envCfg = true := by
  by_cases hsame : t.envCfg = s.envCfg
  · exact hsame.trans hs
  · obtain ⟨-, -, hset⟩ := envcfg_of_change h he (.inr (.inr hsame))
    exact hset

theorem statusWord_reset (p : Params) : statusWord (State.resetOf p) = 0#32 := by
  simp [statusWord, State.resetOf, codeBits, envStateBits]

end Machine

/-! ## The obligations -/

/-- Settles O51: the table, item by item. -/
theorem eachItemHasItsWriters : Obligations.EachItemHasItsWriters := by
  intro e s t h he
  have hitems := perform_items h he
  exact ⟨(hitems .cfg).resolve_right id, (hitems .tbl).resolve_left, (hitems .tblValid).resolve_left,
    (hitems .phase).resolve_left, (hitems .envState).resolve_left, (hitems .envLevel).resolve_left,
    (hitems .attackRate).resolve_left, (hitems .releaseRate).resolve_left, (hitems .envCfg).resolve_left,
    (hitems .sig).resolve_left, (hitems .gain).resolve_left, (hitems .out).resolve_left,
    (hitems .arg0).resolve_left, (hitems .arg1).resolve_left, (hitems .res).resolve_left,
    (hitems .resDesc).resolve_left, (hitems .lastErr).resolve_left, (hitems .halt).resolve_left⟩

/-- Settles O22: the phase has two writers, both of them commands. -/
theorem onlyTheOscillatorMovesThePhase : Obligations.OnlyTheOscillatorMovesThePhase := by
  intro e s t h he hinit hrun
  refine (perform_items h he .phase).resolve_right fun hwriter => ?_
  rcases hwriter with hissues | ⟨f, hissues⟩
  · exact hinit hissues
  · exact hrun f hissues

/-- Settles O28: the quotient fits 16 bits and is 0 for a larger divisor; a change is the work of an `ENVCFG` that found
both arguments nonzero. -/
theorem ratesAreWrittenByEnvcfgAlone : Obligations.RatesAreWrittenByEnvcfgAlone := by
  refine ⟨fun x _ => rateOf_toNat x, by decide, fun x hx => BitVec.eq_of_toNat_eq ?_, fun e s t => envcfg_of_change⟩
  rw [rateOf_toNat, Nat.div_eq_of_lt hx, BitVec.toNat_ofNat]

/-- Settles O49: the reset state lists no element and clears every flag; the three flags have each a command that sets
them and none that clears them. -/
theorem resetReplacesTheWholeState : Obligations.ResetReplacesTheWholeState :=
  ⟨fun s => ⟨applyReset s, rfl, rfl, rfl, rfl, rfl, rfl, rfl, rfl, rfl, rfl, rfl, rfl, fun _ => ⟨rfl, rfl⟩,
      fun _ => ⟨rfl, rfl, rfl⟩⟩,
    fun _ _ _ h he => ⟨halt_of_perform h he, tblValid_of_perform h he, envCfg_of_perform h he⟩⟩

/-- Settles O50: every item of the reset state is a literal, and `STATUS` is assembled from literals. -/
theorem resetStateHasTheSpecsValues : Obligations.ResetStateHasTheSpecsValues := fun p =>
  ⟨rfl, rfl, rfl, rfl, rfl, rfl, rfl, rfl, rfl, rfl, statusWord_reset p, fun _ => ⟨rfl, rfl, rfl, rfl, rfl⟩⟩

/-- Settles O11: the dispatch answers `E_HALTED` first, and a run without a reset keeps `HALT`; the port does not look
at it. -/
theorem onlyResetClearsHalt : Obligations.OnlyResetClearsHalt := by
  refine ⟨fun s c hs => ?_, fun es s t hs hreset h => ?_, fun s d => perform_write_csr s .arg0 d,
    fun s => perform_read_csr (c := .phase) rfl, fun s t h => ?_⟩
  · rw [perform_commandEvent, issueCommand_halted hs]
    rfl
  · have hno (e : HostEvent) (he : e ∈ es) : e ≠ .reset := fun heq => hreset (heq ▸ he)
    exact runEvents_keeps (fun u => u.halt = true) (fun e he _ _ hu hp => halt_of_perform hp (hno e he) hu) hs h
  · cases h
    rfl

end Sys2Proof
end

section
/-!
The phase over several commands, `41_oscillator.md` R73: each `DCORUN` starts where the last one ended.
-/

namespace Sys2Proof

open Machine Safety

namespace Machine

theorem runCommands_append (l l' : List Instr) (s : State) :
    runCommands (l ++ l') s = andThen (runCommands l s) (runCommands l') := by
  induction l generalizing s with
  | nil => rfl
  | cons i l ih =>
    rw [List.cons_append, runCommands, runCommands, andThen_assoc]
    exact congrArg _ (funext ih)

theorem runCommands_concat {l : List Instr} {i : Instr} {s t u : State} (hl : runCommands l s = .next t)
    (hi : exec i t = .next u) : runCommands (l ++ [i]) s = .next u := by
  rw [runCommands_append, hl, andThen_next]
  exact runCommands_cons_next hi []

/-- A sum is reduced modulo `2^16` once, at the end. -/
theorem ofNat_toNat_ofNat_add (a b : Nat) :
    BitVec.ofNat 16 ((BitVec.ofNat 16 a).toNat + b) = BitVec.ofNat 16 (a + b) := by
  rw [BitVec.ofNat_add, BitVec.ofNat_toNat, BitVec.setWidth_eq, ← BitVec.ofNat_add]

theorem phaseAfter_phaseAfter (p d : Half) (j k : Nat) : phaseAfter (phaseAfter p d j) d k = phaseAfter p d (j + k) := by
  simp only [phaseAfter, ofNat_toNat_ofNat_add, Nat.add_mul, Nat.add_assoc]

/-- The commands of a list of words change `SIG`, the phase and `LASTERR` alone; the phase advances by `N` times the
words' sum. -/
theorem runCommands_dcorun {s : State} (hs : s.halt = false) (hv : s.tblValid = true) (hfull : TableFull s)
    (ds : List Half) : ∃ sig' c, runCommands (ds.map .dcorun) s = .next { s with
      sig := sig', phase := BitVec.ofNat 16 (s.phase.toNat + s.cfg.n * (ds.map BitVec.toNat).sum), lastErr := c } := by
  induction ds generalizing s with
  | nil => exact ⟨s.sig, s.lastErr, by simp [runCommands]⟩
  | cons d ds ih =>
    obtain ⟨m, hexec, -⟩ := exec_dcorun_full hs hv hfull d
    obtain ⟨sig', c, hrest⟩ :=
      ih (s := { s with sig := m, phase := phaseAfter s.phase d s.cfg.n, lastErr := .ok }) hs hv hfull
    refine ⟨sig', c, (runCommands_cons_next hexec _).trans (hrest.trans ?_)⟩
    simp only [phaseAfter, ofNat_toNat_ofNat_add, List.map_cons, List.sum_cons, Nat.mul_add, Nat.add_assoc]

/-- `k` commands with one word are at sample `k N` of the running phase. -/
theorem runCommands_replicate_dcorun {s : State} (hs : s.halt = false) (hv : s.tblValid = true) (hfull : TableFull s)
    (d : Half) (k : Nat) : ∃ sig' c, runCommands (List.replicate k (.dcorun d)) s = .next { s with
      sig := sig', phase := phaseAfter s.phase d (k * s.cfg.n), lastErr := c } := by
  obtain ⟨sig', c, hrun⟩ := runCommands_dcorun hs hv hfull (List.replicate k d)
  have hsum : s.cfg.n * ((List.replicate k d).map BitVec.toNat).sum = k * s.cfg.n * d.toNat := by
    rw [List.map_replicate, List.sum_replicate, smul_eq_mul]
    ring
  rw [List.map_replicate, hsum] at hrun
  exact ⟨sig', c, hrun⟩

end Machine

/-! ## The obligations -/

/-- Settles O18: each command adds `N` times its word to the phase that the one before it left. -/
theorem phaseSumsTheIssuedWords : Obligations.PhaseSumsTheIssuedWords := by
  intro ds s hs hv hfull
  obtain ⟨sig', c, hrun⟩ := runCommands_dcorun hs hv hfull ds
  exact ⟨_, hrun, rfl⟩

/-- Settles O17: the last of the commands starts at sample `k N`, so that its sample `n` is sample `k N + n` of the
running phase, as it is in the longer buffer. -/
theorem commandsArePhaseContinuous : Obligations.CommandsArePhaseContinuous := by
  intro d s k hs hv hfull
  obtain ⟨m, c, hfirst⟩ := runCommands_replicate_dcorun hs hv hfull d k
  obtain ⟨sigT, hlast, hcellsT⟩ := exec_dcorun_full
    (s := { s with sig := m, phase := phaseAfter s.phase d (k * s.cfg.n), lastErr := c }) hs hv hfull d
  obtain ⟨sigU, hlong, hcellsU⟩ := exec_dcorun_full
    (s := { s with cfg := { s.cfg with n := (k + 1) * s.cfg.n } }) hs hv hfull d
  have hphase : phaseAfter (phaseAfter s.phase d (k * s.cfg.n)) d s.cfg.n
      = phaseAfter s.phase d ((k + 1) * s.cfg.n) := by
    rw [phaseAfter_phaseAfter, Nat.succ_mul]
  have hcellT (n : Nat) (hn : n < s.cfg.n) : cellAt sigT n
      = some (sextElement s.cfg.width (oscOut s (phaseAfter s.phase d (k * s.cfg.n + n)))) := by
    rw [hcellsT, dcoCell_of_lt hn, phaseAfter_phaseAfter]
    rfl
  have hrun := runCommands_concat hfirst hlast
  rw [← List.replicate_succ'] at hrun
  refine ⟨_, _, hrun, hphase, hlong, hphase.symm, fun n hn => ⟨hcellT n hn, ?_⟩⟩
  have hinside : k * s.cfg.n + n < (k + 1) * s.cfg.n := by
    rw [Nat.succ_mul]
    omega
  exact ((hcellsU _).trans (dcoCell_of_lt hinside _ _)).trans (hcellT n hn).symm

end Sys2Proof
end

section
/-!
`DCORUN` and `ENVRUN` in either order, `70_reset_and_hazards.md` R124: neither reads or writes an item that the other
writes, but for `LASTERR`, which both set to `OK`.
-/

namespace Sys2Proof

open Machine Safety

namespace Machine

/-- The state with what `DCORUN` writes: `SIG`, the phase and a code. -/
def withTone (m : Memory 32) (p : Half) (c : Code) (s : State) : State :=
  { s with sig := m, phase := p, lastErr := c }

/-- The state with what `ENVRUN` writes: `GAIN`, the envelope's state and level and a code. -/
def withEnvelope (m : Memory 32) (st : EnvState) (l : Half) (c : Code) (s : State) : State :=
  { s with gain := m, envState := st, envLevel := l, lastErr := c }

/-- If every sample is the same after an update of the state, then so is the loop. -/
theorem forSamples_update {body : Nat → State → Result} {g : State → State}
    (h : ∀ k s, body k (g s) = andThen (body k s) fun u => .next (g u)) (n : Nat) (s : State) :
    forSamples body n (g s) = andThen (forSamples body n s) fun u => .next (g u) := by
  induction n with
  | zero => rfl
  | succ n ih =>
    rw [forSamples_succ, forSamples_succ, ih, andThen_assoc, andThen_assoc]
    exact congrArg _ (funext fun u => h n u)

/-! ## `DCORUN` after an envelope -/

/-- A sample of `DCORUN` reads and writes nothing of the envelope. -/
theorem dcoSample_withEnvelope (m : Memory 32) (st : EnvState) (l : Half) (c : Code) (fcw : Half) (n : Nat)
    (s : State) : dcoSample fcw n (withEnvelope m st l c s)
      = andThen (dcoSample fcw n s) fun u => .next (withEnvelope m st l c u) := by
  unfold dcoSample withEnvelope
  cases cellAt s.tbl (index0 s.phase) <;> cases cellAt s.tbl (index1 s.phase) <;> rfl

theorem exec_dcorun_valid {s : State} (hs : s.halt = false) (hv : s.tblValid = true) (fcw : Half) :
    exec (.dcorun fcw) s = andThen (forSamples (dcoSample fcw) s.cfg.n s) fun t => .next (complete .ok t) := by
  change execDcorun fcw s = _
  rw [execDcorun, unlessHalted_running hs, if_pos hv]

theorem exec_dcorun_withEnvelope {s : State} (hs : s.halt = false) (hv : s.tblValid = true) (fcw : Half)
    (m : Memory 32) (st : EnvState) (l : Half) (c : Code) : exec (.dcorun fcw) (withEnvelope m st l c s)
      = andThen (exec (.dcorun fcw) s) fun u => .next (withEnvelope m st l .ok u) := by
  rw [exec_dcorun_valid (s := withEnvelope m st l c s) hs hv, exec_dcorun_valid hs hv,
    forSamples_update (dcoSample_withEnvelope m st l c fcw), andThen_assoc, andThen_assoc]
  rfl

/-- A `DCORUN` with a valid table that has a result writes the tone and `OK`. -/
theorem eq_withTone_of_exec_dcorun {fcw : Half} {s u : State} (hs : s.halt = false) (hv : s.tblValid = true)
    (h : exec (.dcorun fcw) s = .next u) : u = withTone u.sig u.phase .ok s := by
  rw [exec_dcorun_valid hs hv, andThen_eq_next] at h
  obtain ⟨v, hloop, hu⟩ := h
  cases hu
  rw [dcoLoop_frame hloop]
  rfl

/-! ## `ENVRUN` after a tone -/

/-- A sample of `ENVRUN` reads and writes nothing of the tone. -/
theorem envSample_withTone (m : Memory 32) (p : Half) (c : Code) (n : Nat) (s : State) :
    envSample n (withTone m p c s) = andThen (envSample n s) fun u => .next (withTone m p c u) := rfl

theorem applyTrigger_withTone (m : Memory 32) (p : Half) (c : Code) (trig : Bool) (s : State) :
    applyTrigger trig (withTone m p c s) = withTone m p c (applyTrigger trig s) := by
  cases trig <;> rfl

theorem exec_envrun_loop {s : State} (hs : s.halt = false) (hc : s.envCfg = true) (trig : Bool) :
    exec (.envrun trig) s
      = andThen (forSamples envSample s.cfg.n (applyTrigger trig s)) fun t => .next (complete .ok t) := by
  change execEnvrun trig s = _
  rw [execEnvrun, unlessHalted_running hs, if_pos hc]

theorem exec_envrun_withTone {s : State} (hs : s.halt = false) (hc : s.envCfg = true) (trig : Bool) (m : Memory 32)
    (p : Half) (c : Code) : exec (.envrun trig) (withTone m p c s)
      = andThen (exec (.envrun trig) s) fun u => .next (withTone m p .ok u) := by
  rw [exec_envrun_loop (s := withTone m p c s) hs hc, exec_envrun_loop hs hc, applyTrigger_withTone,
    forSamples_update (envSample_withTone m p c), andThen_assoc, andThen_assoc]
  rfl

/-- With a configured envelope `ENVRUN` writes the envelope and `OK`. -/
theorem exec_envrun_eq_withEnvelope {s : State} (hs : s.halt = false) (hc : s.envCfg = true) (trig : Bool) :
    ∃ m st l, exec (.envrun trig) s = .next (withEnvelope m st l .ok s) := by
  obtain ⟨m, hexec, -⟩ := exec_envrun_configured hs hc trig
  exact ⟨m, _, _, hexec⟩

end Machine

/-! ## The obligation -/

/-- Settles O39: `ENVRUN` has a result in either place, and what `DCORUN` does, its fault included, is the same in
either place. -/
theorem oscillatorAndEnvelopeCommute : Obligations.OscillatorAndEnvelopeCommute := by
  intro s f b hs hv hc
  obtain ⟨m, st, l, henv⟩ := exec_envrun_eq_withEnvelope hs hc b
  rw [henv, andThen_next, exec_dcorun_withEnvelope hs hv]
  cases hdco : exec (.dcorun f) s with
  | next u =>
    rw [andThen_next, andThen_next, eq_withTone_of_exec_dcorun hs hv hdco, exec_envrun_withTone hs hc, henv,
      andThen_next]
    rfl
  | fault e | refused e => rfl

end Sys2Proof
end

section
/-!
Particular envelopes, `42_envelope.md` R84: the idle one, those with a rate of 0, and the document's end-to-end example.
-/

namespace Sys2Proof

open Machine Safety

namespace Machine

/-- `j + k` samples are `j` samples, then `k` more. -/
theorem envAfter_add (a r : Half) (j k : Nat) (u : EnvState × Half) :
    envAfter a r (j + k) u = envAfter a r k (envAfter a r j u) := by
  induction k with
  | zero => rfl
  | succ k ih => rw [← Nat.add_assoc, envAfter_succ, envAfter_succ, ih]

/-- From Off the first sample has level 0, and so has every later one (`42_envelope.md` R84 (c)). -/
theorem envAfter_off (a r l : Half) (k : Nat) : envAfter a r (k + 1) (.off, l) = (.off, 0#16) := by
  induction k with
  | zero => rfl
  | succ k ih => rw [envAfter_succ, ih]; rfl

/-- An envelope that a sample has ended stays idle. -/
theorem envAfter_ended {a r : Half} {j : Nat} {u : EnvState × Half} (h : envAfter a r j u = (.off, 0#16)) (k : Nat) :
    envAfter a r (j + k) u = (.off, 0#16) := by
  rw [envAfter_add, h]
  cases k with
  | zero => rfl
  | succ k => exact envAfter_off a r 0#16 k

/-- A release at rate 0 never moves (`42_envelope.md` R84 (d)). -/
theorem envAfter_release_zeroRate (a l : Half) (k : Nat) : envAfter a 0#16 k (.release, l) = (.release, l) := by
  have h := envAfter_release (r := 0#16) (l := l) (k := k) (by simp) a
  simpa using h

/-! ## The end-to-end example, rates 3276 and 6 -/

theorem example_attack {k : Nat} (hk : k ≤ 20) :
    envAfter 3276#16 6#16 k (.attack, 0#16) = (.attack, BitVec.ofNat 16 (3276 * k)) := by
  have hrate : (3276#16).toNat = 3276 := rfl
  have h := envAfter_attack (a := 3276#16) (l := 0#16) (k := k) (by rw [hrate]; simp; omega) 6#16
  rwa [hrate, Nat.mul_comm, BitVec.toNat_ofNat, Nat.zero_mod, Nat.zero_add] at h

theorem example_attack_ends : envAfter 3276#16 6#16 21 (.attack, 0#16) = (.release, 65535#16) :=
  envAfter_attack_ends (a := 3276#16) (by decide) 6#16 0#16

theorem example_release {j : Nat} (hj : j ≤ 10922) :
    envAfter 3276#16 6#16 (21 + j) (.attack, 0#16) = (.release, BitVec.ofNat 16 (65535 - 6 * j)) := by
  have hlevel : (65535#16).toNat = 65535 := rfl
  have hrate : (6#16).toNat = 6 := rfl
  rw [envAfter_add, example_attack_ends, envAfter_release (by rw [hlevel, hrate]; omega), hlevel, hrate, Nat.mul_comm]

theorem example_ends : envAfter 3276#16 6#16 10944 (.attack, 0#16) = (.off, 0#16) := by
  have hends := envAfter_release_ends (r := 6#16) (by decide) 3276#16 65535#16
  rw [← example_attack_ends, ← envAfter_add] at hends
  exact hends

end Machine

/-! ## The obligations -/

/-- Settles O32: a release at level 0 ends at its first sample; a rate of 0 adds and subtracts nothing. -/
theorem idleAndZeroRateEnvelopesStay : Obligations.IdleAndZeroRateEnvelopesStay := by
  refine ⟨envAfter_off, fun a r k hr => ?_, envAfter_attack_zeroRate, envAfter_release_zeroRate⟩
  have hends : envAfter a r 1 (.release, 0#16) = (.off, 0#16) :=
    envNext_release_ends (r := r) (l := 0#16) hr a
  rw [Nat.add_comm]
  exact envAfter_ended hends k

/-- Settles O33: `kA = 21` samples of attack, then the release from 65535, which sample 10923 of it ends. -/
theorem endToEndEnvelopeExample : Obligations.EndToEndEnvelopeExample :=
  ⟨by decide, by decide, fun _ => example_attack, example_attack_ends, fun _ => example_release,
    envAfter_ended example_ends⟩

end Sys2Proof
end
